-- ==== Sys2Proof/Word.lean ====
section
/-! DEFINITION. The words of the LS8: the 8-bit value of every register, memory cell and operand byte, and the
9-bit program counter (00_scope.md R11, `WORD` and `PC_WIDTH`). -/

namespace Sys2Proof

/-- `u8`: every register, memory cell and operand byte (00_scope.md R11, R13). -/
abbrev Byte := BitVec 8

/-- The program counter's word: 9 bits, so that 256 is representable (10_state.md R27). -/
abbrev PcWord := BitVec 9

end Sys2Proof
end

