-- ==== Sys2Proof/Config.lean ====
section
/-! DEFINITION. What the hardware fixes (00_scope.md R11, R12). The word width, the 256 cells, the 8 registers and the
3 fetched bytes are in the types and in the checks of Machine/; `STRICT_UNWRITTEN` is false for this hardware (R12):
`step` has no such check, and Machine/Strict.lean gives the optional mode beside it. No value is left free (93_implementation_defined.md, Part 1). -/

namespace Sys2Proof.Config

/-- `ALU_EXT`: true for this hardware, profile LS8-CORE (00_scope.md R8, R12). Every function that depends on it takes
it as an argument, so LS8-DOC is the same function at `false`. -/
def aluExt : Bool := true

/-- `SP_INDEX` (00_scope.md R11): the stack pointer is register 7. -/
def spIndex : Fin 8 := 7

/-- `SP_RESET` (00_scope.md R11). -/
def spReset : Byte := 0xF4#8

/-- `PC_RESET` (00_scope.md R11). -/
def pcReset : PcWord := 0#9

/-- `LOAD_BASE` (00_scope.md R11): where the host's program goes. -/
def loadBase : Nat := 0

/-- `RESET_GPR` (00_scope.md R12): the reset value of R0 to R6, the spec's decision D3. UNVERIFIED, unsafe: log entry 1. -/
def resetGpr : Byte := 0#8

/-- `RESET_FL` (00_scope.md R12): the reset value of FL, the spec's decision D3. UNVERIFIED, unsafe: log entry 1. -/
def resetFl : Byte := 0#8

end Sys2Proof.Config
end

