-- ==== Sys2Proof/Syntax.lean ====
section
/-! DEFINITION. The syntax of the LS8: one constructor per row of the opcode table (30_encoding.md R87), in its order.
An operand is the operand byte itself: a register index is used "directly ... without masking" (10_state.md R24), and a
byte of 8 or more is checked when the instruction executes (40_step.md R104), not when it is decoded. -/

namespace Sys2Proof

/-- The 20 instructions. `a` is the byte at PC+1 and `b` the byte at PC+2, where the format has them (R80, R83). -/
inductive Instr where
  | hlt
  | ret
  | push (a : Byte)
  | pop (a : Byte)
  | prn (a : Byte)
  | call (a : Byte)
  | jmp (a : Byte)
  | jeq (a : Byte)
  | jne (a : Byte)
  | not (a : Byte)
  | ldi (a b : Byte)
  | add (a b : Byte)
  | sub (a b : Byte)
  | mul (a b : Byte)
  | cmp (a b : Byte)
  | and (a b : Byte)
  | or (a b : Byte)
  | xor (a b : Byte)
  | shl (a b : Byte)
  | shr (a b : Byte)
deriving DecidableEq, Repr

end Sys2Proof
end

