-- ==== Sys2Proof/WellFormed.lean ====
section
/-! DEFINITION. Which instructions are well formed: those of the active profile (00_scope.md R8) whose register operands
name registers (30_encoding.md R82). An ill-formed operand still decodes and executes: it raises
`AddressingFault(register)` (40_step.md R104). -/

namespace Sys2Proof

/-- The operand bytes used as register indices, a then b: `regOperands` of 40_step.md R108. LDI's b is an immediate (R109). -/
def Instr.regOperands : Instr → List Byte
  | .hlt => []
  | .ret => []
  | .push a => [a]
  | .pop a => [a]
  | .prn a => [a]
  | .call a => [a]
  | .jmp a => [a]
  | .jeq a => [a]
  | .jne a => [a]
  | .not a => [a]
  | .ldi a _ => [a]
  | .add a b => [a, b]
  | .sub a b => [a, b]
  | .mul a b => [a, b]
  | .cmp a b => [a, b]
  | .and a b => [a, b]
  | .or a b => [a, b]
  | .xor a b => [a, b]
  | .shl a b => [a, b]
  | .shr a b => [a, b]

/-- Whether the profile has the instruction: the seven extended ALU instructions need `ALU_EXT` (00_scope.md R8). -/
def Instr.inProfile (aluExt : Bool) : Instr → Bool
  | .sub _ _ => aluExt
  | .and _ _ => aluExt
  | .or _ _ => aluExt
  | .xor _ _ => aluExt
  | .not _ => aluExt
  | .shl _ _ => aluExt
  | .shr _ _ => aluExt
  | .hlt => true
  | .ret => true
  | .push _ => true
  | .pop _ => true
  | .prn _ => true
  | .call _ => true
  | .jmp _ => true
  | .jeq _ => true
  | .jne _ => true
  | .ldi _ _ => true
  | .add _ _ => true
  | .mul _ _ => true
  | .cmp _ _ => true

/-- Every register operand names one of the 8 registers (10_state.md R24). -/
def Instr.regsInRange (i : Instr) : Bool :=
  i.regOperands.all fun r => decide (r.toNat ≤ 7)

/-- Well formed in the profile chosen by `aluExt`. -/
def Instr.wellFormedIn (aluExt : Bool) (i : Instr) : Bool :=
  i.inProfile aluExt && i.regsInRange

/-- Well formed on this hardware. -/
def Instr.wellFormed (i : Instr) : Bool :=
  i.wellFormedIn Config.aluExt

end Sys2Proof
end

