-- ==== Sys2Proof/Decode.lean ====
section
/-! DEFINITION. The opcode map (30_encoding.md R87), the decoder it defines, total on any bytes and rejecting by name, and
the encoder written from the same table. -/

namespace Sys2Proof

/-- The three formats (30_encoding.md R80). -/
inductive Format where
  | f0
  | f1
  | f2
deriving DecidableEq, Repr

/-- The "sets PC" column of 30_encoding.md R87. -/
inductive SetsPc where
  | no
  | yes
  | whenTaken
deriving DecidableEq, Repr

/-- The "profile" column of 30_encoding.md R87. -/
inductive Profile where
  | both
  | coreOnly
deriving DecidableEq, Repr

/-- The rows of the opcode map, each under its mnemonic (30_encoding.md R87). -/
inductive Op where
  | hlt | ret | push | pop | prn | call | jmp | jeq | jne | not
  | ldi | add | sub | mul | cmp | and | or | xor | shl | shr
deriving DecidableEq, Repr

/-- Why the decoder rejects a byte. Both reasons raise `IllegalInstruction` (40_step.md R103). -/
inductive DecodeReject where
  /-- The byte is in no row of the map (30_encoding.md R89); the wider-LS8 bytes of R90 are among these. -/
  | notInTable (op : Byte)
  /-- The byte's row is LS8-CORE only and `ALU_EXT` is false (30_encoding.md R89). -/
  | notInProfile (op : Byte)
  /-- Fewer than the three bytes that every fetch reads (40_step.md R102). -/
  | tooFewBytes
deriving DecidableEq, Repr

/-- The instruction's length in bytes (30_encoding.md R80). -/
def Format.width : Format → Nat
  | .f0 => 1
  | .f1 => 2
  | .f2 => 3

/-- The opcode byte (30_encoding.md R87). -/
def Op.opcode : Op → Byte
  | .hlt => 0x01#8
  | .ret => 0x11#8
  | .push => 0x45#8
  | .pop => 0x46#8
  | .prn => 0x47#8
  | .call => 0x50#8
  | .jmp => 0x54#8
  | .jeq => 0x55#8
  | .jne => 0x56#8
  | .not => 0x69#8
  | .ldi => 0x82#8
  | .add => 0xA0#8
  | .sub => 0xA1#8
  | .mul => 0xA2#8
  | .cmp => 0xA7#8
  | .and => 0xA8#8
  | .or => 0xAA#8
  | .xor => 0xAB#8
  | .shl => 0xAC#8
  | .shr => 0xAD#8

/-- The format column (30_encoding.md R83, R87). -/
def Op.format : Op → Format
  | .hlt => .f0
  | .ret => .f0
  | .push => .f1
  | .pop => .f1
  | .prn => .f1
  | .call => .f1
  | .jmp => .f1
  | .jeq => .f1
  | .jne => .f1
  | .not => .f1
  | .ldi => .f2
  | .add => .f2
  | .sub => .f2
  | .mul => .f2
  | .cmp => .f2
  | .and => .f2
  | .or => .f2
  | .xor => .f2
  | .shl => .f2
  | .shr => .f2

/-- The width column (30_encoding.md R87), taken from the row and not from the byte's fields (R86). -/
def Op.width (o : Op) : Nat := o.format.width

/-- The "sets PC" column (30_encoding.md R87; 40_step.md R113). -/
def Op.setsPc : Op → SetsPc
  | .hlt => .no
  | .ret => .yes
  | .push => .no
  | .pop => .no
  | .prn => .no
  | .call => .yes
  | .jmp => .yes
  | .jeq => .whenTaken
  | .jne => .whenTaken
  | .not => .no
  | .ldi => .no
  | .add => .no
  | .sub => .no
  | .mul => .no
  | .cmp => .no
  | .and => .no
  | .or => .no
  | .xor => .no
  | .shl => .no
  | .shr => .no

/-- The profile column (30_encoding.md R87). -/
def Op.profile : Op → Profile
  | .hlt => .both
  | .ret => .both
  | .push => .both
  | .pop => .both
  | .prn => .both
  | .call => .both
  | .jmp => .both
  | .jeq => .both
  | .jne => .both
  | .not => .coreOnly
  | .ldi => .both
  | .add => .both
  | .sub => .coreOnly
  | .mul => .both
  | .cmp => .both
  | .and => .coreOnly
  | .or => .coreOnly
  | .xor => .coreOnly
  | .shl => .coreOnly
  | .shr => .coreOnly

/-- The whole map, in the order of 30_encoding.md R87. -/
def Op.table : List Op :=
  [.hlt, .ret, .push, .pop, .prn, .call, .jmp, .jeq, .jne, .not,
   .ldi, .add, .sub, .mul, .cmp, .and, .or, .xor, .shl, .shr]

/-- Whether the row decodes in the profile chosen by `aluExt` (30_encoding.md R87). -/
def Op.inProfile (aluExt : Bool) (o : Op) : Bool :=
  aluExt || o.profile == .both

/-! The opcode byte's fields `AABCDDDD` (30_encoding.md R81). The decoder uses none of them; they stand here so that the
table can be checked against them (R88). -/

/-- `AA`, bits 7:6: the number of operand bytes. -/
def opcodeOperandCount (b : Byte) : Nat := (b.extractLsb' 6 2).toNat

/-- `B`, bit 5: an ALU operation. -/
def opcodeIsAlu (b : Byte) : Bool := b.getLsbD 5

/-- `C`, bit 4: an instruction that sets PC itself. -/
def opcodeSetsPc (b : Byte) : Bool := b.getLsbD 4

/-- `DDDD`, bits 3:0: the instruction identifier. -/
def opcodeIdentifier (b : Byte) : Nat := (b.extractLsb' 0 4).toNat

/-- The row of an opcode byte, by the exhaustive table (30_encoding.md R86). -/
def Op.ofByte (aluExt : Bool) (b : Byte) : Except DecodeReject Op :=
  match Op.table.find? (fun o => o.opcode == b) with
  | none => .error (.notInTable b)
  | some o => if o.inProfile aluExt then .ok o else .error (.notInProfile b)

/-- The instruction of a row with its operand bytes; bytes the format has no place for are dropped unchecked
(30_encoding.md R83, R85). -/
def Op.build (a b : Byte) : Op → Instr
  | .hlt => .hlt
  | .ret => .ret
  | .push => .push a
  | .pop => .pop a
  | .prn => .prn a
  | .call => .call a
  | .jmp => .jmp a
  | .jeq => .jeq a
  | .jne => .jne a
  | .not => .not a
  | .ldi => .ldi a b
  | .add => .add a b
  | .sub => .sub a b
  | .mul => .mul a b
  | .cmp => .cmp a b
  | .and => .and a b
  | .or => .or a b
  | .xor => .xor a b
  | .shl => .shl a b
  | .shr => .shr a b

/-- `Decode` of 40_step.md R103, on the three fetched bytes. -/
def decode (aluExt : Bool) (op a b : Byte) : Except DecodeReject Instr :=
  match Op.ofByte aluExt op with
  | .ok o => .ok (Op.build a b o)
  | .error e => .error e

/-- The decoder on bytes in increasing address order (20_memory.md R54): it reads three, as every fetch does. -/
def decodeBytes (aluExt : Bool) : List Byte → Except DecodeReject Instr
  | op :: a :: b :: _ => decode aluExt op a b
  | _ => .error .tooFewBytes

/-- The row an instruction belongs to. -/
def Instr.op : Instr → Op
  | .hlt => .hlt
  | .ret => .ret
  | .push _ => .push
  | .pop _ => .pop
  | .prn _ => .prn
  | .call _ => .call
  | .jmp _ => .jmp
  | .jeq _ => .jeq
  | .jne _ => .jne
  | .not _ => .not
  | .ldi _ _ => .ldi
  | .add _ _ => .add
  | .sub _ _ => .sub
  | .mul _ _ => .mul
  | .cmp _ _ => .cmp
  | .and _ _ => .and
  | .or _ _ => .or
  | .xor _ _ => .xor
  | .shl _ _ => .shl
  | .shr _ _ => .shr

/-- The operand bytes the format has (30_encoding.md R83): the register operands, and LDI's immediate. -/
def Instr.operandBytes : Instr → List Byte
  | .ldi a b => [a, b]
  | .hlt => []
  | .ret => []
  | .push a => [a]
  | .pop a => [a]
  | .prn a => [a]
  | .call a => [a]
  | .jmp a => [a]
  | .jeq a => [a]
  | .jne a => [a]
  | .not a => [a]
  | .add a b => [a, b]
  | .sub a b => [a, b]
  | .mul a b => [a, b]
  | .cmp a b => [a, b]
  | .and a b => [a, b]
  | .or a b => [a, b]
  | .xor a b => [a, b]
  | .shl a b => [a, b]
  | .shr a b => [a, b]

/-- The encoder: the opcode byte and then the operand bytes, at increasing addresses (30_encoding.md R80, R93). -/
def encode (i : Instr) : List Byte :=
  i.op.opcode :: i.operandBytes

/-- Byte `k` of an instruction whose bits are `w`, numbered as the opcode table numbers them; every bit at or above
`nbits` is 0. -/
def tableWordByte (nbits w k : Nat) : Byte :=
  BitVec.ofNat 8 ((w % 2 ^ nbits) >>> (8 * k))

/-- What the decoder reads from the table's word (the host's interface). -/
def decodeTableWord (nbits w : Nat) : Option Instr :=
  match decodeBytes Config.aluExt [tableWordByte nbits w 0, tableWordByte nbits w 1, tableWordByte nbits w 2] with
  | .ok i => some i
  | .error _ => none

end Sys2Proof
end

