-- ==== Sys2Proof/Machine/State.lean ====
section
/-! DEFINITION. The architectural state (10_state.md R20), its reset value (R42), and the reasons a step can stop. -/

namespace Sys2Proof.Machine

/-- The causes of a machine fault (60_exceptions.md R210). -/
inductive Cause where
  | illegalInstruction
  | addressingFault
  /-- Code 3, reserved: "never raised" (60_exceptions.md R217). -/
  | aluContract
deriving DecidableEq, Repr

/-- The kinds of an `AddressingFault` (60_exceptions.md R210). -/
inductive FaultKind where
  | fetch
  | register
  | memory
  | stack
  | load
deriving DecidableEq, Repr

/-- The fault record (60_exceptions.md R211). `index` is an integer, since a stack fault records −1. -/
structure FaultRecord where
  cause : Cause
  kind : Option FaultKind
  pc : PcWord
  opcode : Option Byte
  index : Option Int
deriving DecidableEq, Repr

/-- Memory as data: (address, byte) pairs in rising order of address, no pair holding 0; an unlisted cell reads as 0,
its reset value (20_memory.md R50). The form is `Memory.wf` (Machine/Ops.lean); log entry 5. -/
abbrev Memory := List Host.Cell

/-- "A model's `State` structure has exactly these fields" (10_state.md R20). The stack pointer is `x[7]`, no field of
its own (R22). -/
structure State where
  mem : Memory
  x : Vector Byte 8
  pc : PcWord
  fl : Byte
  halted : Bool
  fault : Option FaultRecord
  out : List Byte
deriving DecidableEq, Repr

/-- Why a step does not happen. A machine fault of 60_exceptions.md is none of these: taking it is a next state. -/
inductive Fault where
  /-- The machine is Halted: no step is enabled (40_step.md R101, R116). Raised by `step` alone. Safe: the model stops. -/
  | halted
  /-- The machine is Faulted: no step is enabled (40_step.md R101, R117). Raised by `step` alone. Safe: the model stops. -/
  | faulted
deriving DecidableEq, Repr

/-- Why the model gives an instruction no meaning. -/
inductive Refusal where
  /-- An instruction not yet modelled, by its mnemonic. Raised by no arm of `exec`: every instruction has its meaning.
  Safe: the model stops. -/
  | notModelled (mnemonic : String)
deriving DecidableEq, Repr

/-- The machine right after reset (10_state.md R42; 70_reset_and_hazards.md R240). R0 to R6 and FL: log entry 1. -/
def State.reset : State where
  mem := []
  x := #v[Config.resetGpr, Config.resetGpr, Config.resetGpr, Config.resetGpr,
          Config.resetGpr, Config.resetGpr, Config.resetGpr, Config.spReset]
  pc := Config.pcReset
  fl := Config.resetFl
  halted := false
  fault := none
  out := []

end Sys2Proof.Machine
end

