-- ==== Sys2Proof/Machine/Ops.lean ====
section
/-! DEFINITION. The named operations over registers, memory and the output port, taking a fault, and the end of an
instruction (PC update and commit). There is no return from a fault: "There is no return-from-trap instruction"
(60_exceptions.md R222). -/

namespace Sys2Proof.Machine

/-! ### The memory array -/

/-- The byte of a cell: the listed one, else 0 (20_memory.md R50, "zero-initialized at construction"). -/
def Memory.read : Memory → Nat → Byte
  | [], _ => 0#8
  | (k, w) :: m, n => if k = n then w else Memory.read m n

/-- The memory with one cell stored, in canonical form: storing 0 unlists the cell. -/
def Memory.write : Memory → Nat → Byte → Memory
  | [], n, v => if v = 0#8 then [] else [(n, v)]
  | (k, w) :: m, n, v =>
    if n < k then (if v = 0#8 then (k, w) :: m else (n, v) :: (k, w) :: m)
    else if n = k then (if v = 0#8 then m else (n, v) :: m)
    else (k, w) :: Memory.write m n v

/-- The canonical form from address `lo` on: strictly rising addresses of 0..255, no cell listed at 0. -/
def Memory.wfFrom : Nat → Memory → Bool
  | _, [] => true
  | lo, (k, w) :: m => decide (lo ≤ k) && decide (k ≤ 255) && decide (w ≠ 0#8) && Memory.wfFrom (k + 1) m

/-- The canonical form of a memory: equal memories are equal lists (log entry 5). -/
def Memory.wf (m : Memory) : Bool := Memory.wfFrom 0 m

/-- Bytes stored contiguously from `base` on, lowest address first. -/
def Memory.writeBytes : Memory → Nat → List Byte → Memory
  | m, _, [] => m
  | m, base, v :: vs => Memory.writeBytes (Memory.write m base v) (base + 1) vs

/-! ### Registers, flags and status -/

/-- `x[i]` (00_scope.md R14). No register is hard-wired (10_state.md R21). -/
def State.reg (s : State) (i : Fin 8) : Byte := s.x[i]

/-- `x[i] <- v` (00_scope.md R14). Register 7 is written like any other (10_state.md R23). -/
def State.setReg (s : State) (i : Fin 8) (v : Byte) : State := { s with x := s.x.set i v }

/-- `SP`, an alias of `x[7]` (10_state.md R22). -/
def State.sp (s : State) : Byte := s.reg Config.spIndex

/-- `SP <- v`. -/
def State.setSp (s : State) (v : Byte) : State := s.setReg Config.spIndex v

/-- `FL <- v`, the whole byte (10_state.md R31). -/
def State.setFl (s : State) (v : Byte) : State := { s with fl := v }

/-- `PC <- v`. -/
def State.setPc (s : State) (v : PcWord) : State := { s with pc := v }

/-- `halted <- true` (40_step.md R110). -/
def State.halt (s : State) : State := { s with halted := true }

/-- The byte in cell `n`, as the introspection port and the claims read it (70_reset_and_hazards.md R256). -/
def State.byteAt (s : State) (n : Nat) : Byte := s.mem.read n

/-- `emit(v)`: `out <- out ++ [v]` (20_memory.md R66). -/
def State.emit (s : State) (v : Byte) : State := { s with out := s.out ++ [v] }

/-- The three machine states, the Faulted one with its record (10_state.md R38; 70_reset_and_hazards.md R255). -/
inductive Status where
  | running
  | halted
  | faulted (r : FaultRecord)
deriving DecidableEq, Repr

/-- The machine state, derived from `halted` and `fault` (10_state.md R38). -/
def State.status (s : State) : Status :=
  if s.halted then .halted
  else match s.fault with
    | none => .running
    | some r => .faulted r

/-- Whether a step is enabled (40_step.md R101). -/
def State.running (s : State) : Bool := !s.halted && s.fault.isNone

/-! ### Taking a fault -/

/-- The numeric code of a cause (60_exceptions.md R210). -/
def Cause.code : Cause → Nat
  | .illegalInstruction => 1
  | .addressingFault => 2
  | .aluContract => 3

/-- The numeric code of a kind (60_exceptions.md R210). -/
def FaultKind.code : FaultKind → Nat
  | .fetch => 0
  | .register => 1
  | .memory => 2
  | .stack => 3
  | .load => 4

/-- The record of `IllegalInstruction` (60_exceptions.md R213). -/
def FaultRecord.illegal (pc : PcWord) (op : Byte) : FaultRecord :=
  { cause := .illegalInstruction, kind := none, pc := pc, opcode := some op, index := none }

/-- The record of `AddressingFault(fetch)` at address `n` (60_exceptions.md R215). -/
def FaultRecord.fetch (pc : PcWord) (n : Nat) : FaultRecord :=
  { cause := .addressingFault, kind := some .fetch, pc := pc, opcode := none, index := some n }

/-- The record of `AddressingFault(register)` for the operand byte `r` (60_exceptions.md R214). -/
def FaultRecord.register (pc : PcWord) (op r : Byte) : FaultRecord :=
  { cause := .addressingFault, kind := some .register, pc := pc, opcode := some op, index := some r.toNat }

/-- The record of `AddressingFault(memory)` (20_memory.md R51; 60_exceptions.md R211). -/
def FaultRecord.memory (pc : PcWord) (op : Option Byte) (addr : Int) : FaultRecord :=
  { cause := .addressingFault, kind := some .memory, pc := pc, opcode := op, index := some addr }

/-- The record of `AddressingFault(stack)` (60_exceptions.md R216). -/
def FaultRecord.stack (pc : PcWord) (op : Byte) (sp : Int) : FaultRecord :=
  { cause := .addressingFault, kind := some .stack, pc := pc, opcode := some op, index := some sp }

/-- The record of `AddressingFault(load)` for a program of `n` bytes (60_exceptions.md R211; 70_reset_and_hazards.md R245). -/
def FaultRecord.load (n : Nat) : FaultRecord :=
  { cause := .addressingFault, kind := some .load, pc := 0#9, opcode := none, index := some n }

/-- `fail(s, e)` of 40_step.md R108: the state before the step with `fault <- some e`, "nothing else changes". This is
the one way a fault is taken (60_exceptions.md R212): no vector, no saved context, no mode (R221). -/
def State.fail (s : State) (e : FaultRecord) : State := { s with fault := some e }

/-! ### The memory port -/

/-- `MemRead(addr, 1)` (20_memory.md R51). `op` is the opcode a fault would record, none during fetch. -/
def memRead (s : State) (op : Option Byte) (addr : Int) : Except FaultRecord Byte :=
  if 0 ≤ addr ∧ addr ≤ 255 then .ok (s.byteAt addr.toNat)
  else .error (.memory s.pc op addr)

/-- `MemWrite(addr, 1, v)` (20_memory.md R51). -/
def memWrite (s : State) (op : Option Byte) (addr : Int) (v : Byte) : Except FaultRecord State :=
  if 0 ≤ addr ∧ addr ≤ 255 then .ok { s with mem := s.mem.write addr.toNat v }
  else .error (.memory s.pc op addr)

/-! ### The stack pointer -/

/-- The decrement of PUSH and CALL with its bound: SP = 0 raises `AddressingFault(stack)`, index −1 (43_stack.md R178). -/
def decSp (o : Op) (s : State) : Except FaultRecord State :=
  if 0 ≤ (s.sp.toNat : Int) - 1 then .ok (s.setSp (s.sp - 1#8))
  else .error (.stack s.pc o.opcode ((s.sp.toNat : Int) - 1))

/-- The increment of POP and RET with its bound: a new SP of 256 raises `AddressingFault(stack)`, index 256
(43_stack.md R178). -/
def incSp (o : Op) (s : State) : Except FaultRecord State :=
  if (s.sp.toNat : Int) + 1 ≤ 255 then .ok (s.setSp (s.sp + 1#8))
  else .error (.stack s.pc o.opcode ((s.sp.toNat : Int) + 1))

/-! ### The end of an instruction -/

/-- How an instruction's rule ends (40_step.md R105). -/
inductive NextPc where
  | seq
  | jump (target : Byte)
deriving DecidableEq, Repr

/-- The execute part of an instruction: a raised fault, or the working copy and where control goes (40_step.md R105, R108). -/
abbrev ExecPart := Except FaultRecord (State × NextPc)

/-- The address of the next instruction in sequence, `pc0 + width(ins)` (00_scope.md R18). -/
def seqPc (o : Op) (pc0 : PcWord) : PcWord := pc0 + BitVec.ofNat 9 o.width

/-- The PC sequencer (40_step.md R106). -/
def nextPc (o : Op) (pc0 : PcWord) : NextPc → PcWord
  | .seq => seqPc o pc0
  | .jump target => target.setWidth 9

/-- PC update and commit of the working copy, or the fault taken on the state before the step (40_step.md R106 to R108).
`s` is the state before the step. -/
def finish (o : Op) (s : State) : ExecPart → Host.Outcome State Fault Refusal
  | .error e => .next (s.fail e)
  | .ok (t, next) => .next (t.setPc (nextPc o s.pc next))

end Sys2Proof.Machine
end

