-- ==== Sys2Proof/Machine/Operands.lean ====
section
/-! DEFINITION. Operand bytes: the register operand with its check (40_step.md R104). The only other operand is LDI's
immediate, used as it is (30_encoding.md R84), and bytes of no operand are dropped by the decoder (R85). -/

namespace Sys2Proof.Machine

/-- A `reg` operand: the whole byte selects the register, without masking; 8 or more raises `AddressingFault(register)`
(10_state.md R24; 40_step.md R104). -/
def regOperand (o : Op) (s : State) (r : Byte) : Except FaultRecord (Fin 8) :=
  if h : r.toNat ≤ 7 then .ok ⟨r.toNat, by omega⟩
  else .error (.register s.pc o.opcode r)

end Sys2Proof.Machine
end

