-- ==== Sys2Proof/Machine/Alu.lean ====
section
/-! DEFINITION. The ALU (42_alu.md): its function table, which writes no flag and raises no fault (R140, R157), and the
nine ALU instructions. -/

namespace Sys2Proof.Machine

/-! ### The function table (42_alu.md R141): exact unsigned arithmetic, then the low 8 bits -/

/-- ADD: `(va + vb) mod 256`. -/
def aluAdd (va vb : Byte) : Byte := BitVec.ofNat 8 (va.toNat + vb.toNat)

/-- SUB: `(va - vb + 256) mod 256`. -/
def aluSub (va vb : Byte) : Byte := BitVec.ofInt 8 ((va.toNat : Int) - vb.toNat + 256)

/-- MUL: `(va * vb) mod 256`. -/
def aluMul (va vb : Byte) : Byte := BitVec.ofNat 8 (va.toNat * vb.toNat)

/-- AND. -/
def aluAnd (va vb : Byte) : Byte := va &&& vb

/-- OR. -/
def aluOr (va vb : Byte) : Byte := va ||| vb

/-- XOR. -/
def aluXor (va vb : Byte) : Byte := va ^^^ vb

/-- NOT: `255 - va`. -/
def aluNot (va : Byte) : Byte := 255#8 - va

/-- SHL: `(va * 2^vb) mod 256`, the count all 8 bits of `vb` (42_alu.md R149). -/
def aluShl (va vb : Byte) : Byte := BitVec.ofNat 8 (va.toNat * 2 ^ vb.toNat)

/-- SHR: `floor(va / 2^vb)`, zero fill, the count all 8 bits of `vb` (42_alu.md R150). -/
def aluShr (va vb : Byte) : Byte := BitVec.ofNat 8 (va.toNat / 2 ^ vb.toNat)

/-! ### The datapath -/

/-- A two-operand ALU instruction: both operands checked and read, then `x[a]` written (42_alu.md R140, R151). -/
def aluPart (o : Op) (f : Byte → Byte → Byte) (a b : Byte) (s : State) : ExecPart := do
  let ra ← regOperand o s a
  let rb ← regOperand o s b
  return (s.setReg ra (f (s.reg ra) (s.reg rb)), .seq)

/-- MUL (42_alu.md R142). -/
def execMul (a b : Byte) (s : State) : Host.Outcome State Fault Refusal :=
  finish .mul s (aluPart .mul aluMul a b s)

/-- ADD (42_alu.md R143). -/
def execAdd (a b : Byte) (s : State) : Host.Outcome State Fault Refusal :=
  finish .add s (aluPart .add aluAdd a b s)

/-- SUB (42_alu.md R144). -/
def execSub (a b : Byte) (s : State) : Host.Outcome State Fault Refusal :=
  finish .sub s (aluPart .sub aluSub a b s)

/-- AND (42_alu.md R145). -/
def execAnd (a b : Byte) (s : State) : Host.Outcome State Fault Refusal :=
  finish .and s (aluPart .and aluAnd a b s)

/-- OR (42_alu.md R146). -/
def execOr (a b : Byte) (s : State) : Host.Outcome State Fault Refusal :=
  finish .or s (aluPart .or aluOr a b s)

/-- XOR (42_alu.md R147). -/
def execXor (a b : Byte) (s : State) : Host.Outcome State Fault Refusal :=
  finish .xor s (aluPart .xor aluXor a b s)

/-- NOT (42_alu.md R148). -/
def execNot (a : Byte) (s : State) : Host.Outcome State Fault Refusal :=
  finish .not s <| do
    let ra ← regOperand .not s a
    return (s.setReg ra (aluNot (s.reg ra)), .seq)

/-- SHL (42_alu.md R149). -/
def execShl (a b : Byte) (s : State) : Host.Outcome State Fault Refusal :=
  finish .shl s (aluPart .shl aluShl a b s)

/-- SHR (42_alu.md R150). -/
def execShr (a b : Byte) (s : State) : Host.Outcome State Fault Refusal :=
  finish .shr s (aluPart .shr aluShr a b s)

end Sys2Proof.Machine
end

