-- ==== Sys2Proof/Machine/Flags.lean ====
section
/-! DEFINITION. The flags register FL: its three bits (10_state.md R30) and the value CMP computes (44_compare_branch.md
R190). No other instruction computes a flag (10_state.md R31; 42_alu.md R157). -/

namespace Sys2Proof.Machine

/-- E, bit 0 of FL: the last compare found its operands equal (10_state.md R30). -/
def flagE (fl : Byte) : Bool := fl.getLsbD 0

/-- G, bit 1 of FL: greater. -/
def flagG (fl : Byte) : Bool := fl.getLsbD 1

/-- L, bit 2 of FL: less. -/
def flagL (fl : Byte) : Bool := fl.getLsbD 2

/-- The FL that CMP writes: an unsigned compare, one bit set, bits 7..3 zero (44_compare_branch.md R190). -/
def compareFlags (va vb : Byte) : Byte :=
  if va = vb then 0b00000001#8
  else if vb.toNat < va.toNat then 0b00000010#8
  else 0b00000100#8

end Sys2Proof.Machine
end

