-- ==== Sys2Proof/Machine/Branch.lean ====
section
/-! DEFINITION. CMP and the branches JMP, JEQ, JNE (44_compare_branch.md). Targets are absolute addresses from a register
(R195); JEQ and JNE check their register whether or not they branch (R193, R194). -/

namespace Sys2Proof.Machine

/-- CMP (44_compare_branch.md R190). -/
def execCmp (a b : Byte) (s : State) : Host.Outcome State Fault Refusal :=
  finish .cmp s <| do
    let ra ← regOperand .cmp s a
    let rb ← regOperand .cmp s b
    return (s.setFl (compareFlags (s.reg ra) (s.reg rb)), .seq)

/-- JMP (44_compare_branch.md R192). -/
def execJmp (a : Byte) (s : State) : Host.Outcome State Fault Refusal :=
  finish .jmp s <| do
    let ra ← regOperand .jmp s a
    return (s, .jump (s.reg ra))

/-- JEQ (44_compare_branch.md R193): taken when E is 1. -/
def execJeq (a : Byte) (s : State) : Host.Outcome State Fault Refusal :=
  finish .jeq s <| do
    let ra ← regOperand .jeq s a
    return (s, if flagE s.fl then .jump (s.reg ra) else .seq)

/-- JNE (44_compare_branch.md R194): taken when E is 0. -/
def execJne (a : Byte) (s : State) : Host.Outcome State Fault Refusal :=
  finish .jne s <| do
    let ra ← regOperand .jne s a
    return (s, if flagE s.fl then .seq else .jump (s.reg ra))

end Sys2Proof.Machine
end

