-- ==== Sys2Proof/Machine/Data.lean ====
section
/-! DEFINITION. Immediate load and output: LDI and PRN (41_data.md). -/

namespace Sys2Proof.Machine

/-- LDI (41_data.md R130): `b` is any value, never checked. -/
def execLdi (a b : Byte) (s : State) : Host.Outcome State Fault Refusal :=
  finish .ldi s <| do
    let ra ← regOperand .ldi s a
    return (s.setReg ra b, .seq)

/-- PRN (41_data.md R131). -/
def execPrn (a : Byte) (s : State) : Host.Outcome State Fault Refusal :=
  finish .prn s <| do
    let ra ← regOperand .prn s a
    return (s.emit (s.reg ra), .seq)

end Sys2Proof.Machine
end

