-- ==== Sys2Proof/Machine/Halt.lean ====
section
/-! DEFINITION. HLT (40_step.md R110), "the only transition to Halted". -/

namespace Sys2Proof.Machine

/-- HLT: `halted <- true`, and PC goes to the byte after it. -/
def execHlt (s : State) : Host.Outcome State Fault Refusal :=
  finish .hlt s (.ok (s.halt, .seq))

end Sys2Proof.Machine
end

