-- ==== Sys2Proof/Machine/Stack.lean ====
section
/-! DEFINITION. The stack instructions PUSH, POP, CALL and RET (43_stack.md). Statements run in order on the working
copy `t`, each seeing the earlier ones' effects (00_scope.md R17): `PUSH R7` stores the decremented SP, `POP R7`
increments the loaded value, `CALL R7` jumps to the decremented SP. -/

namespace Sys2Proof.Machine

/-- PUSH (43_stack.md R171): `x[a]` is read after the decrement. -/
def execPush (a : Byte) (s : State) : Host.Outcome State Fault Refusal :=
  finish .push s <| do
    let ra ← regOperand .push s a
    let t ← decSp .push s
    let t ← memWrite t (some Op.push.opcode) t.sp.toNat (t.reg ra)
    return (t, .seq)

/-- POP (43_stack.md R172): the register is written first, then SP as it then stands is incremented. -/
def execPop (a : Byte) (s : State) : Host.Outcome State Fault Refusal :=
  finish .pop s <| do
    let ra ← regOperand .pop s a
    let v ← memRead s (some Op.pop.opcode) s.sp.toNat
    let t ← incSp .pop (s.setReg ra v)
    return (t, .seq)

/-- The return address CALL pushes: `pc0 + 2`, one byte, since `pc0 <= 253` at every step that reaches CALL
(43_stack.md R175; log entry 4). -/
def returnAddress (pc0 : PcWord) : Byte := (pc0 + 2#9).setWidth 8

/-- CALL (43_stack.md R173): the target is read after the decrement. -/
def execCall (a : Byte) (s : State) : Host.Outcome State Fault Refusal :=
  finish .call s <| do
    let ra ← regOperand .call s a
    let t ← decSp .call s
    let t ← memWrite t (some Op.call.opcode) t.sp.toNat (returnAddress s.pc)
    return (t, .jump (t.reg ra))

/-- RET (43_stack.md R174). -/
def execRet (s : State) : Host.Outcome State Fault Refusal :=
  finish .ret s <| do
    let target ← memRead s (some Op.ret.opcode) s.sp.toNat
    let t ← incSp .ret s
    return (t, .jump target)

end Sys2Proof.Machine
end

