-- ==== Sys2Proof/Machine/Fetch.lean ====
section
/-! DEFINITION. The fetch of three bytes (40_step.md R102), into latches that do not outlive the step (10_state.md R40),
and the placing of an instruction where the next step fetches it. -/

namespace Sys2Proof.Machine

/-- The fetch latches (10_state.md R40). -/
structure Latches where
  op : Byte
  a : Byte
  b : Byte
deriving DecidableEq, Repr

/-- The bound check of the fetch: k = 0, 1, 2 in order, the fault at the lowest out-of-range address (40_step.md R102). -/
def fetchCheck (pc0 : PcWord) : Except FaultRecord Unit :=
  match [0, 1, 2].find? (fun k => decide (255 < pc0.toNat + k)) with
  | none => .ok ()
  | some k => .error (.fetch pc0 (pc0.toNat + k))

/-- Fetch: the check, then the three reads, whatever the instruction (40_step.md R102). -/
def fetch (s : State) : Except FaultRecord Latches := do
  fetchCheck s.pc
  let op ← memRead s none s.pc.toNat
  let a ← memRead s none (s.pc.toNat + 1 : Nat)
  let b ← memRead s none (s.pc.toNat + 2 : Nat)
  return ⟨op, a, b⟩

/-- A byte placed in a cell that exists; a place past 255 is no cell and takes nothing. -/
def placeByte (s : State) (n : Nat) (v : Byte) : State :=
  if n ≤ 255 then { s with mem := s.mem.write n v } else s

/-- The three bytes of the opcode table's word placed at PC, where the next step fetches (log entry 7). -/
def placeTableWord (s : State) (nbits w : Nat) : State :=
  placeByte (placeByte (placeByte s s.pc.toNat (tableWordByte nbits w 0))
    (s.pc.toNat + 1) (tableWordByte nbits w 1))
    (s.pc.toNat + 2) (tableWordByte nbits w 2)

end Sys2Proof.Machine
end

