-- ==== Sys2Proof/Machine/Cycle.lean ====
section
/-! DEFINITION. One step of the block as one function (40_step.md R108), for either profile. -/

namespace Sys2Proof.Machine

/-- Fetch, decode, execute (40_step.md R102 to R107), on a Running state. Fetch and decode faults are taken as next states. -/
def cycle (aluExt : Bool) (s : State) : Host.Outcome State Fault Refusal :=
  match fetch s with
  | .error e => .next (s.fail e)
  | .ok l =>
    match decode aluExt l.op l.a l.b with
    | .error _ => .next (s.fail (.illegal s.pc l.op))
    | .ok i => exec i s

/-- The step: enabled only in the Running state (40_step.md R101, R116, R117; log entry 3). -/
def stepIn (aluExt : Bool) (s : State) : Host.Outcome State Fault Refusal :=
  match s.status with
  | .halted => .fault .halted
  | .faulted _ => .fault .faulted
  | .running => cycle aluExt s

end Sys2Proof.Machine
end

