-- ==== Sys2Proof/Machine/Step.lean ====
section
/-! DEFINITION. The step of this hardware, and an instruction placed where it fetches. -/

namespace Sys2Proof.Machine

/-- The step of this hardware, profile LS8-CORE (00_scope.md R8, R12; 40_step.md R108). -/
def step (s : State) : Host.Outcome State Fault Refusal := stepIn Config.aluExt s

/-- `s` with the table's word stored at PC, where `step` fetches (the host's interface; log entry 7). -/
def State.withFetchWord (s : State) (nbits w : Nat) : State := placeTableWord s nbits w

end Sys2Proof.Machine
end

