-- ==== Sys2Proof/Machine/Events.lean ====
section
/-! DEFINITION. The port transactions of one step, in order (20_memory.md R68), computed from the state before it. They
are no state: R20 of 10_state.md closes the list of fields, and reads have no effect (20_memory.md R58). -/

namespace Sys2Proof.Machine

/-- One transaction of the memory port or the output port. -/
inductive PortEvent where
  | memRead (addr : Nat) (v : Byte)
  | memWrite (addr : Nat) (v : Byte)
  | emit (v : Byte)
deriving DecidableEq, Repr

/-- The value of a register operand that the step has already checked; 0 on a byte that names no register. -/
def operandValue (o : Op) (s : State) (r : Byte) : Byte :=
  match regOperand o s r with
  | .ok i => s.reg i
  | .error _ => 0#8

/-- The transactions of the execute part of an instruction that commits `t` from `s`, the table of 20_memory.md R52. -/
def execEvents (i : Instr) (s t : State) : List PortEvent :=
  match i with
  | .push a => [.memWrite t.sp.toNat (operandValue .push t a)]
  | .call _ => [.memWrite t.sp.toNat (returnAddress s.pc)]
  | .pop _ => [.memRead s.sp.toNat (s.byteAt s.sp.toNat)]
  | .ret => [.memRead s.sp.toNat (s.byteAt s.sp.toNat)]
  | .prn a => [.emit (operandValue .prn s a)]
  | .hlt => []
  | .jmp _ => []
  | .jeq _ => []
  | .jne _ => []
  | .not _ => []
  | .ldi _ _ => []
  | .add _ _ => []
  | .sub _ _ => []
  | .mul _ _ => []
  | .cmp _ _ => []
  | .and _ _ => []
  | .or _ _ => []
  | .xor _ _ => []
  | .shl _ _ => []
  | .shr _ _ => []

/-- The three reads of the fetch, in order (20_memory.md R68). -/
def fetchEvents (s : State) (l : Latches) : List PortEvent :=
  [.memRead s.pc.toNat l.op, .memRead (s.pc.toNat + 1) l.a, .memRead (s.pc.toNat + 2) l.b]

/-- The transactions of one step, in order. A step that faults records the fetch reads it made before the fault and no
write (20_memory.md R68; log entry 8). -/
def stepEvents (s : State) : List PortEvent :=
  match s.status with
  | .halted => []
  | .faulted _ => []
  | .running =>
    match fetch s with
    | .error _ => []
    | .ok l =>
      match decode Config.aluExt l.op l.a l.b with
      | .error _ => fetchEvents s l
      | .ok i =>
        match exec i s with
        | .next t => if t.fault.isNone then fetchEvents s l ++ execEvents i s t else fetchEvents s l
        | .fault _ => fetchEvents s l
        | .refused _ => fetchEvents s l

end Sys2Proof.Machine
end

