-- ==== Sys2Proof/Machine/Ports.lean ====
section
/-! DEFINITION. The block's ports (70_reset_and_hazards.md R247): the transactions of the host, each atomic and without
time. A step request where no step is enabled is ignored (R257), which is what the port adds to `step`. -/

namespace Sys2Proof.Machine

/-- The block as the host sees it: the state, and whether the load port still accepts a program (R246; log entry 6). -/
structure Block where
  state : State
  loadOpen : Bool
deriving DecidableEq, Repr

/-- The `reset` port, from any state (70_reset_and_hazards.md R240). -/
def Block.reset (_ : Block) : Block := { state := State.reset, loadOpen := true }

/-- The effect of an accepted load (70_reset_and_hazards.md R244, R245): bytes from `LOAD_BASE` on, or, for more than 256
bytes, nothing written and `AddressingFault(load)` taken. -/
def State.load (s : State) (p : List Byte) : State :=
  if 256 < p.length then s.fail (.load p.length)
  else { s with mem := s.mem.writeBytes Config.loadBase p }

/-- The `load` port: accepted once, in the reset state, before the first step; else refused without effect
(70_reset_and_hazards.md R244, R246). -/
def Block.load (p : List Byte) (k : Block) : Block :=
  if k.loadOpen then { state := k.state.load p, loadOpen := false } else k

/-- What a step request does to the state: the step if one is enabled, else nothing (70_reset_and_hazards.md R257). -/
def State.stepRequest (s : State) : State :=
  match step s with
  | .next t => t
  | .fault _ => s
  | .refused _ => s

/-- The `step` port (70_reset_and_hazards.md R257). A step taken closes the load port (R246). -/
def Block.stepRequest (k : Block) : Block :=
  if k.state.running then { state := k.state.stepRequest, loadOpen := false } else k

/-- The `run` port under fuel: steps while Running (40_step.md R111; 70_reset_and_hazards.md R258). The block itself has
no limit; a run that ends is one that some fuel brings to a state that is not Running. -/
def Block.runRequest : Nat → Block → Block
  | 0, k => k
  | n + 1, k => if k.state.running then Block.runRequest n k.stepRequest else k

/-- The `status` port (70_reset_and_hazards.md R255). -/
def Block.readStatus (k : Block) : Status := k.state.status

/-- The `inspect` port (70_reset_and_hazards.md R256): `readReg(i)`. -/
def Block.readReg (k : Block) (i : Fin 8) : Byte := k.state.reg i

/-- `readMem(a)`. -/
def Block.readMem (k : Block) (a : Byte) : Byte := k.state.byteAt a.toNat

/-- `readPC()`. -/
def Block.readPC (k : Block) : PcWord := k.state.pc

/-- `readFL()`. -/
def Block.readFL (k : Block) : Byte := k.state.fl

/-- `readHalted()`. -/
def Block.readHalted (k : Block) : Bool := k.state.halted

end Sys2Proof.Machine
end

