-- ==== Sys2Proof/Machine/Strict.lean ====
section
/-! DEFINITION. The conservative mode `STRICT_UNWRITTEN = true` (00_scope.md R12; 10_state.md R43), beside the hardware's
step and not part of it: R0 to R6 and FL hold no value at reset, and a read of one before any write to it stops with the
model-only fault `UnwrittenRead`. -/

namespace Sys2Proof.Machine

/-- What the mode can hold unwritten: a register, by its operand byte, or FL. -/
inductive StrictItem where
  | reg (r : Byte)
  | fl
deriving DecidableEq, Repr

/-- The state with what is unwritten in it. -/
structure StrictState where
  state : State
  unwritten : List StrictItem
deriving DecidableEq, Repr

/-- Why a strict step does not happen. -/
inductive StrictFault where
  /-- No step is enabled, for the reason `step` gives. Raised by `strictStep` alone. Safe: the model stops. -/
  | notRunning (f : Fault)
  /-- `UnwrittenRead` (10_state.md R43). Raised by `strictStep` alone. Safe: the model stops. -/
  | unwrittenRead (x : StrictItem)
deriving DecidableEq, Repr

/-- Reset in this mode: `x[0]` to `x[6]` and FL unwritten (10_state.md R43). The stack pointer has its reset value (R22). -/
def StrictState.reset : StrictState where
  state := State.reset
  unwritten := [.reg 0#8, .reg 1#8, .reg 2#8, .reg 3#8, .reg 4#8, .reg 5#8, .reg 6#8, .fl]

/-- The instruction at PC, where one is fetched and decodes (40_step.md R102, R103). -/
def State.instrAt (s : State) : Option Instr :=
  match fetch s with
  | .error _ => none
  | .ok l =>
    match decode Config.aluExt l.op l.a l.b with
    | .error _ => none
    | .ok i => some i

/-- What the instruction's rule reads, in order: FL by JEQ and JNE only, which read `x[a]` only when they jump. SP is
never unwritten, so its reads are left out. -/
def readItems (i : Instr) (s : State) : List StrictItem :=
  match i with
  | .hlt => []
  | .ret => []
  | .push a => [.reg a]
  | .pop _ => []
  | .prn a => [.reg a]
  | .call a => [.reg a]
  | .jmp a => [.reg a]
  | .jeq a => if flagE s.fl then [.fl, .reg a] else [.fl]
  | .jne a => if flagE s.fl then [.fl] else [.fl, .reg a]
  | .not a => [.reg a]
  | .ldi _ _ => []
  | .add a b => [.reg a, .reg b]
  | .sub a b => [.reg a, .reg b]
  | .mul a b => [.reg a, .reg b]
  | .cmp a b => [.reg a, .reg b]
  | .and a b => [.reg a, .reg b]
  | .or a b => [.reg a, .reg b]
  | .xor a b => [.reg a, .reg b]
  | .shl a b => [.reg a, .reg b]
  | .shr a b => [.reg a, .reg b]

/-- What the instruction's rule writes: "LDI, POP and the ALU write a register. CMP writes FL." (10_state.md R43) -/
def writeItems : Instr → List StrictItem
  | .hlt => []
  | .ret => []
  | .push _ => []
  | .pop a => [.reg a]
  | .prn _ => []
  | .call _ => []
  | .jmp _ => []
  | .jeq _ => []
  | .jne _ => []
  | .not a => [.reg a]
  | .ldi a _ => [.reg a]
  | .add a _ => [.reg a]
  | .sub a _ => [.reg a]
  | .mul a _ => [.reg a]
  | .cmp _ _ => [.fl]
  | .and a _ => [.reg a]
  | .or a _ => [.reg a]
  | .xor a _ => [.reg a]
  | .shl a _ => [.reg a]
  | .shr a _ => [.reg a]

/-- The strict step. A fault of the block comes first, as every check precedes the read it guards (40_step.md R104;
43_stack.md R171, R173); then the first unwritten item read stops the step. -/
def strictStep (k : StrictState) : Host.Outcome StrictState StrictFault Refusal :=
  match step k.state with
  | .fault f => .fault (.notRunning f)
  | .refused r => .refused r
  | .next t =>
    if t.fault.isSome then .next { k with state := t }
    else
      match k.state.instrAt with
      | none => .next { k with state := t }
      | some i =>
        match (readItems i k.state).find? k.unwritten.contains with
        | some x => .fault (.unwrittenRead x)
        | none => .next { state := t, unwritten := k.unwritten.filter (fun x => !(writeItems i).contains x) }

end Sys2Proof.Machine
end

