-- ==== Sys2Proof/Safety.lean ====
section
/-! DEFINITION. The terms in which claims about the machine are stated: the ends of a run, the invariant of reachable
states, frames, and the shape of an instruction's rule. -/

namespace Sys2Proof

open Machine

/-! ### The end of a run (70_reset_and_hazards.md R259) -/

/-- A normal end: Halted, and no fault. -/
def NormalEnd (s : State) : Prop := s.halted = true ∧ s.fault = none

/-- A failed end, never a normal one: Faulted. -/
def FailedEnd (s : State) : Prop := s.fault ≠ none

/-! ### The invariant (10_state.md R38, R44; 60_exceptions.md R211, R215, R217) -/

/-- A fault record the block can raise: its shape by cause and kind (60_exceptions.md R211, R213 to R217). `memory` and
`aluContract` are raised by nothing. -/
def FaultRecordLawful (r : FaultRecord) : Prop :=
  match r.cause, r.kind with
  | .illegalInstruction, none =>
    r.pc.toNat ≤ 253 ∧ (∃ op, r.opcode = some op) ∧ r.index = none
  | .addressingFault, some .fetch =>
    254 ≤ r.pc.toNat ∧ r.pc.toNat ≤ 256 ∧ r.opcode = none ∧ r.index = some 256
  | .addressingFault, some .register =>
    r.pc.toNat ≤ 253 ∧ (∃ op, r.opcode = some op) ∧ ∃ b : Byte, 8 ≤ b.toNat ∧ r.index = some (b.toNat : Int)
  | .addressingFault, some .stack =>
    r.pc.toNat ≤ 253 ∧ (∃ op, r.opcode = some op) ∧ (r.index = some (-1) ∨ r.index = some 256)
  | .addressingFault, some .load =>
    r.pc = 0#9 ∧ r.opcode = none ∧ ∃ n : Nat, 256 < n ∧ r.index = some (n : Int)
  | _, _ => False

/-- What holds in every reachable state (10_state.md R44, with R38 and the memory's canonical form). -/
structure StateInv (s : State) : Prop where
  /-- Memory is in canonical form, every listed address in 0..255. -/
  mem : s.mem.wf = true
  /-- "FL is in {0, 1, 2, 4}". -/
  fl : s.fl = 0#8 ∨ s.fl = 1#8 ∨ s.fl = 2#8 ∨ s.fl = 4#8
  /-- "`PC` is in 0..256". -/
  pc : s.pc.toNat ≤ 256
  /-- "`halted = true` and `fault ≠ none` never hold together" (R38). -/
  status : s.halted = true → s.fault = none
  /-- The fault record, if any, is one the block raises. -/
  record : ∀ r, s.fault = some r → FaultRecordLawful r

/-! ### Frames -/

/-- Every byte of memory reads as before. -/
def SameMemory (s t : State) : Prop := ∀ n : Nat, t.byteAt n = s.byteAt n

/-- Every byte of memory but the one at `n₀` reads as before. -/
def SameMemoryBut (n₀ : Nat) (s t : State) : Prop := ∀ n : Nat, n ≠ n₀ → t.byteAt n = s.byteAt n

/-- Every general register is as before. -/
def SameRegs (s t : State) : Prop := ∀ i : Fin 8, t.reg i = s.reg i

/-- Every general register but `r` is as before. -/
def SameRegsBut (r : Fin 8) (s t : State) : Prop := ∀ i : Fin 8, i ≠ r → t.reg i = s.reg i

/-- The halted flag and the fault record are as before. -/
def SameStatus (s t : State) : Prop := t.halted = s.halted ∧ t.fault = s.fault

/-- Control goes on `w` bytes further, from any place where an instruction can be fetched (40_step.md R102, R106). -/
def Advances (w : Nat) (s t : State) : Prop := s.pc.toNat ≤ 253 → t.pc.toNat = s.pc.toNat + w

/-! ### The rule of an instruction -/

/-- The canonical operand byte of register `r` (30_encoding.md R82). -/
def regByte (r : Fin 8) : Byte := BitVec.ofNat 8 r.val

/-- The opcode bytes of the profile chosen by `aluExt`, as 30_encoding.md R87 lists them. -/
def profileOpcodes (aluExt : Bool) : List Byte :=
  [0x01#8, 0x11#8, 0x45#8, 0x46#8, 0x47#8, 0x50#8, 0x54#8, 0x55#8, 0x56#8, 0x82#8, 0xA0#8, 0xA2#8, 0xA7#8]
    ++ if aluExt then [0x69#8, 0xA1#8, 0xA8#8, 0xAA#8, 0xAB#8, 0xAC#8, 0xAD#8] else []

/-- The fault `AddressingFault(fetch)` taken at PC: the lowest out-of-range address of the three is recorded (40_step.md R102). -/
def atFetchFault (s : State) : State :=
  { s with fault := some { cause := .addressingFault, kind := some .fetch, pc := s.pc, opcode := none,
                           index := some (max 256 (s.pc.toNat : Int)) } }

/-- The fault `IllegalInstruction` taken at PC on the byte `op` (60_exceptions.md R213). -/
def atIllegalFault (op : Byte) (s : State) : State :=
  { s with fault := some { cause := .illegalInstruction, kind := none, pc := s.pc, opcode := some op, index := none } }

/-- The fault `AddressingFault(register)` taken by opcode `op` on operand byte `r` (60_exceptions.md R214). -/
def atRegisterFault (op r : Byte) (s : State) : State :=
  { s with fault := some { cause := .addressingFault, kind := some .register, pc := s.pc, opcode := some op,
                           index := some (r.toNat : Int) } }

/-- The fault `AddressingFault(stack)` taken by opcode `op` at the index `n` (60_exceptions.md R216). -/
def atStackFault (op : Byte) (n : Int) (s : State) : State :=
  { s with fault := some { cause := .addressingFault, kind := some .stack, pc := s.pc, opcode := some op, index := some n } }

/-- The opcode byte `op` at PC starts the instruction that `mk` makes of the two bytes after it; past 253 the fetch
faults instead (40_step.md R102, R103). -/
def RunsAs (op : Byte) (mk : Byte → Byte → Instr) : Prop :=
  ∀ s : State, s.running = true → s.byteAt s.pc.toNat = op →
    (s.pc.toNat ≤ 253 → step s = exec (mk (s.byteAt (s.pc.toNat + 1)) (s.byteAt (s.pc.toNat + 2))) s) ∧
    (253 < s.pc.toNat → step s = .next (atFetchFault s))

/-- The form `OP`: it runs from its opcode byte `op`, in one byte (30_encoding.md R80, F0). -/
def NullaryForm (op : Byte) (i : Instr) : Prop :=
  RunsAs op (fun _ _ => i) ∧ encode i = [op]

/-- The form `OP Ra`: it runs from its opcode byte `op` in two bytes, and faults on an operand byte over 7
(30_encoding.md R80, F1; 40_step.md R104). -/
def UnaryForm (op : Byte) (mk : Byte → Instr) : Prop :=
  RunsAs op (fun a _ => mk a) ∧
  (∀ a : Byte, encode (mk a) = [op, a]) ∧
  (∀ (a : Byte) (s : State), 7 < a.toNat → exec (mk a) s = .next (atRegisterFault op a s))

/-- The form `OP Ra,Rb`: it runs from its opcode byte `op` in three bytes, and faults on an operand byte over 7, a
checked first (30_encoding.md R80, F2; 40_step.md R104). -/
def BinaryForm (op : Byte) (mk : Byte → Byte → Instr) : Prop :=
  RunsAs op mk ∧
  (∀ a b : Byte, encode (mk a b) = [op, a, b]) ∧
  (∀ (a b : Byte) (s : State), 7 < a.toNat → exec (mk a b) s = .next (atRegisterFault op a s)) ∧
  (∀ (a b : Byte) (s : State), a.toNat ≤ 7 → 7 < b.toNat → exec (mk a b) s = .next (atRegisterFault op b s))

/-- The rule of a two-register ALU instruction whose exact function is `f`: its form, and on every pair of registers it
completes, `x[a]` gets the result, and nothing else changes but PC (42_alu.md R140, R141, R157). -/
def AluRule (op : Byte) (mk : Byte → Byte → Instr) (f : Nat → Nat → Nat) : Prop :=
  BinaryForm op mk ∧
  ∀ (ra rb : Fin 8) (s : State), ∃ t, exec (mk (regByte ra) (regByte rb)) s = .next t ∧
    (t.reg ra).toNat = f (s.reg ra).toNat (s.reg rb).toNat ∧ SameRegsBut ra s t ∧ Advances 3 s t ∧
    t.fl = s.fl ∧ SameMemory s t ∧ t.out = s.out ∧ SameStatus s t

/-! ### Running an instruction or the machine repeatedly -/

/-- `n` times the instruction `i`, stopping when it does not complete or takes a fault. -/
def execTimes (i : Instr) : Nat → State → Option State
  | 0, s => some s
  | n + 1, s =>
    match exec i s with
    | .next t => if t.fault = s.fault then execTimes i n t else none
    | .fault _ => none
    | .refused _ => none

/-- The values a step emits, in order, among its port transactions (20_memory.md R66, R68). -/
def emitted : List PortEvent → List Byte
  | [] => []
  | .emit v :: es => v :: emitted es
  | .memRead _ _ :: es => emitted es
  | .memWrite _ _ :: es => emitted es

/-! ### The block's ports -/

/-- What holds of the block at every transaction: the machine's invariant, and an open load port only in the reset state
(70_reset_and_hazards.md R246). -/
structure BlockInv (k : Block) : Prop where
  state : StateInv k.state
  load : k.loadOpen = true → k.state = State.reset

/-! ### The strict mode (10_state.md R43) -/

/-- The three bytes at PC can be fetched and decode to `i` (40_step.md R102, R103). -/
def DecodesAtPc (s : State) (i : Instr) : Prop :=
  s.pc.toNat ≤ 253 ∧
  decode Config.aluExt (s.byteAt s.pc.toNat) (s.byteAt (s.pc.toNat + 1)) (s.byteAt (s.pc.toNat + 2)) = .ok i

/-- Two states that differ at most in what is unwritten. -/
structure SameWritten (unwritten : List StrictItem) (s t : State) : Prop where
  reg : ∀ i : Fin 8, .reg (regByte i) ∉ unwritten → t.reg i = s.reg i
  fl : .fl ∉ unwritten → t.fl = s.fl
  rest : { t with x := s.x, fl := s.fl } = s

/-- Two strict outcomes that an observer of what is written cannot tell apart. -/
def SameStrictOutcome : (o o' : Host.Outcome StrictState StrictFault Refusal) → Prop
  | .next k, .next k' => k'.unwritten = k.unwritten ∧ SameWritten k.unwritten k.state k'.state
  | .fault f, .fault f' => f' = f
  | .refused r, .refused r' => r' = r
  | _, _ => False

end Sys2Proof
end

