-- ==== Sys2Proof/Certificates/Slice0/Obligations.lean ====
section
/-! DEFINITION. The statements for the provers. Where a statement rests on one of the spec's own decisions D<n>
(92_eei_decisions.md) or on an inference the spec marks as derived, its docstring says so, its basis is 'derived' and it
cites sections; the opcode bytes other than those of HLT, LDI, MUL and PRN are the spec's decisions D1 and D2. -/

open Sys2Proof
open Sys2Proof.Machine

/-! ### Reset and the invariant -/

/-- What the source itself fixes at reset: PC, SP, the halted flag, memory (10_state.md R29; also R22, R36, 20_memory.md R50). -/
def Obligations.ResetGivesTheSourcesValues : Prop :=
  State.reset.pc = 0#9 ∧ State.reset.reg 7 = 0xF4#8 ∧ State.reset.halted = false ∧
    ∀ n : Nat, n ≤ 255 → State.reset.byteAt n = 0#8

/-- The other reset values of 10_state.md R42, the spec's own decisions D3, D8 and D16 (log entry 1). -/
def Obligations.ResetGivesTheDecidedValues : Prop :=
  (∀ i : Fin 8, i ≠ 7 → State.reset.reg i = 0#8) ∧ State.reset.fl = 0#8 ∧ State.reset.fault = none ∧
    State.reset.out = [] ∧ State.reset.status = .running

/-- 10_state.md R44 (derived there) at reset. -/
def Obligations.ResetMeetsTheInvariant : Prop := StateInv State.reset

/-- 10_state.md R44 and R38 (derived there): every step from a state that meets the invariant gives one that does. -/
def Obligations.StepKeepsTheInvariant : Prop :=
  ∀ s t : State, StateInv s → step s = .next t → StateInv t

/-- The invariant, and an open load port only in the reset state, hold through every transaction of the host
(70_reset_and_hazards.md R240, R244 to R246, R257, R258: decisions D17, D18, D22; log entry 6). -/
def Obligations.PortsKeepTheInvariant : Prop :=
  ∀ k : Block, BlockInv k →
    BlockInv k.reset ∧ (∀ p : List Byte, BlockInv (k.load p)) ∧ BlockInv k.stepRequest ∧
      ∀ n : Nat, BlockInv (Block.runRequest n k)

/-! ### Encoding -/

/-- Decoding the encoding of an instruction of the profile gives it back, for every operand byte, whatever bytes follow
(30_encoding.md sections 1 to 3: decisions D1, D2, D24). -/
def Obligations.DecodeOfEncodeIsTheInstruction : Prop :=
  ∀ (ext : Bool) (i : Instr) (p q : Byte) (rest : List Byte), i.inProfile ext = true →
    decodeBytes ext (encode i ++ p :: q :: rest) = .ok i

/-- The other direction: bytes that decode are the encoding of what they decode to, up to the bytes the format has no
place for, and only instructions of the profile are decoded (30_encoding.md sections 1 to 3: decisions D1, D2, D24). -/
def Obligations.EncodeOfDecodeIsTheBytes : Prop :=
  ∀ (ext : Bool) (op a b : Byte) (i : Instr), decode ext op a b = .ok i →
    i.inProfile ext = true ∧ encode i = [op, a, b].take i.op.width

/-- 30_encoding.md R97, the source's own words: the five instructions of its scenario, both ways. -/
def Obligations.WorkedEncodings : Prop :=
  [Instr.ldi 0#8 8#8, Instr.ldi 1#8 9#8, Instr.mul 0#8 1#8, Instr.prn 0#8, Instr.hlt].flatMap encode =
    [0b10000010#8, 0#8, 8#8, 0b10000010#8, 1#8, 9#8, 0b10100010#8, 0#8, 1#8, 0b01000111#8, 0#8, 0b00000001#8] ∧
  decode Config.aluExt 0b10000010#8 0#8 8#8 = .ok (.ldi 0#8 8#8) ∧
  decode Config.aluExt 0b10000010#8 1#8 9#8 = .ok (.ldi 1#8 9#8) ∧
  decode Config.aluExt 0b10100010#8 0#8 1#8 = .ok (.mul 0#8 1#8) ∧
  (∀ q : Byte, decode Config.aluExt 0b01000111#8 0#8 q = .ok (.prn 0#8)) ∧
  (∀ p q : Byte, decode Config.aluExt 0b00000001#8 p q = .ok .hlt)

/-- The opcode map of 30_encoding.md R87, row by row, each byte written out in binary (decisions D1, D2). -/
def Obligations.OpcodeMapRowByRow : Prop :=
  ∀ a b : Byte,
    decode Config.aluExt 0b00000001#8 a b = .ok .hlt ∧
    decode Config.aluExt 0b00010001#8 a b = .ok .ret ∧
    decode Config.aluExt 0b01000101#8 a b = .ok (.push a) ∧
    decode Config.aluExt 0b01000110#8 a b = .ok (.pop a) ∧
    decode Config.aluExt 0b01000111#8 a b = .ok (.prn a) ∧
    decode Config.aluExt 0b01010000#8 a b = .ok (.call a) ∧
    decode Config.aluExt 0b01010100#8 a b = .ok (.jmp a) ∧
    decode Config.aluExt 0b01010101#8 a b = .ok (.jeq a) ∧
    decode Config.aluExt 0b01010110#8 a b = .ok (.jne a) ∧
    decode Config.aluExt 0b01101001#8 a b = .ok (.not a) ∧
    decode Config.aluExt 0b10000010#8 a b = .ok (.ldi a b) ∧
    decode Config.aluExt 0b10100000#8 a b = .ok (.add a b) ∧
    decode Config.aluExt 0b10100001#8 a b = .ok (.sub a b) ∧
    decode Config.aluExt 0b10100010#8 a b = .ok (.mul a b) ∧
    decode Config.aluExt 0b10100111#8 a b = .ok (.cmp a b) ∧
    decode Config.aluExt 0b10101000#8 a b = .ok (.and a b) ∧
    decode Config.aluExt 0b10101010#8 a b = .ok (.or a b) ∧
    decode Config.aluExt 0b10101011#8 a b = .ok (.xor a b) ∧
    decode Config.aluExt 0b10101100#8 a b = .ok (.shl a b) ∧
    decode Config.aluExt 0b10101101#8 a b = .ok (.shr a b)

/-- 30_encoding.md R89 and R90 (derived there, and decision D2): a byte outside the profile's list decodes to nothing,
and the fourteen wider-LS8 bytes are outside both lists. -/
def Obligations.BytesOutsideTheMapAreRejected : Prop :=
  (∀ (ext : Bool) (op a b : Byte), op ∉ profileOpcodes ext → ∃ e, decode ext op a b = .error e) ∧
  (∀ op ∈ [0x00#8, 0x83#8, 0x84#8, 0x48#8, 0xA3#8, 0xA4#8, 0x65#8, 0x66#8, 0x52#8, 0x13#8, 0x57#8, 0x58#8, 0x59#8, 0x5A#8],
    op ∉ profileOpcodes true ∧ op ∉ profileOpcodes false)

/-! ### The step -/

/-- A Running step whose three fetched bytes decode to `i` is `exec` of `i` on that state; `exec` does the PC update and
the commit (40_step.md R108: decisions D7, D9). -/
def Obligations.StepRunsTheDecodedInstruction : Prop :=
  ∀ (s : State) (i : Instr), s.running = true → s.pc.toNat ≤ 253 →
    decode Config.aluExt (s.byteAt s.pc.toNat) (s.byteAt (s.pc.toNat + 1)) (s.byteAt (s.pc.toNat + 2)) = .ok i →
    step s = exec i s

/-- 40_step.md R102 (decision D5): past 253 the fetch faults at the lowest out-of-range address, which is 256 in every
state with PC up to 256 (60_exceptions.md R215). -/
def Obligations.FetchPastTheEndFaults : Prop :=
  ∀ s : State, s.running = true → 253 < s.pc.toNat →
    step s = .next (atFetchFault s) ∧
    (s.pc.toNat ≤ 256 → ∃ t r, step s = .next t ∧ t.fault = some r ∧ r.index = some 256)

/-- 60_exceptions.md R213, in either profile. -/
def Obligations.IllegalOpcodeFaults : Prop :=
  (∀ (ext : Bool) (s : State), s.running = true → s.pc.toNat ≤ 253 → s.byteAt s.pc.toNat ∉ profileOpcodes ext →
    stepIn ext s = .next (atIllegalFault (s.byteAt s.pc.toNat) s)) ∧
  (∀ (ext : Bool) (s : State), s.running = true → s.pc.toNat ≤ 253 → s.byteAt s.pc.toNat ∈ profileOpcodes ext →
    ∀ t r, stepIn ext s = .next t → t.fault = some r → r.cause ≠ .illegalInstruction) ∧
  Cause.illegalInstruction.code = 1 ∧
  (∀ op ∈ [0x00#8, 0xFF#8, 0x83#8, 0x84#8, 0x48#8, 0xA3#8, 0xA4#8, 0x65#8, 0x66#8, 0x52#8, 0x13#8, 0x57#8, 0x58#8, 0x59#8,
      0x5A#8], ∀ ext : Bool, op ∉ profileOpcodes ext) ∧
  (∀ op ∈ [0x69#8, 0xA1#8, 0xA8#8, 0xAA#8, 0xAB#8, 0xAC#8, 0xAD#8], op ∉ profileOpcodes false)

/-- 60_exceptions.md section 1 and 40_step.md section 1 (R214, R104; decisions D7, D9, D24): the first register operand
of 8 or more, a before b, is recorded, unmasked, JEQ's and JNE's too when not taken, and nothing else changes. -/
def Obligations.RegisterOperandOverSevenFaults : Prop :=
  (∀ (i : Instr) (s : State) (r : Byte), i.regOperands.find? (fun x => decide (8 ≤ x.toNat)) = some r →
    exec i s = .next (atRegisterFault i.op.opcode r s)) ∧
  Cause.addressingFault.code = 2

/-- 43_stack.md R178 (decisions D7, D28): the four stack instructions fault at the bounds instead of moving SP outside
0..255; for POP R7 the value checked is the loaded one. -/
def Obligations.StackBoundsFault : Prop :=
  (∀ (r : Fin 8) (s : State), (s.reg 7).toNat = 0 →
    exec (.push (regByte r)) s = .next (atStackFault 0x45#8 (-1) s) ∧
    exec (.call (regByte r)) s = .next (atStackFault 0x50#8 (-1) s)) ∧
  (∀ (r : Fin 8) (s : State), r ≠ 7 → (s.reg 7).toNat = 255 →
    exec (.pop (regByte r)) s = .next (atStackFault 0x46#8 256 s)) ∧
  (∀ s : State, (s.byteAt (s.reg 7).toNat).toNat = 255 →
    exec (.pop (regByte 7)) s = .next (atStackFault 0x46#8 256 s)) ∧
  (∀ s : State, (s.reg 7).toNat = 255 → exec .ret s = .next (atStackFault 0x11#8 256 s))

/-- 60_exceptions.md R220 (decision D9): fetch, then illegal, then register a, then register b, then stack. -/
def Obligations.FaultOrder : Prop :=
  (∀ s : State, s.running = true →
    step s =
      if 253 < s.pc.toNat then .next (atFetchFault s)
      else
        match decode Config.aluExt (s.byteAt s.pc.toNat) (s.byteAt (s.pc.toNat + 1)) (s.byteAt (s.pc.toNat + 2)) with
        | .error _ => .next (atIllegalFault (s.byteAt s.pc.toNat) s)
        | .ok i =>
          match i.regOperands.find? (fun x => decide (8 ≤ x.toNat)) with
          | some r => .next (atRegisterFault (s.byteAt s.pc.toNat) r s)
          | none => exec i s) ∧
  (∀ (i : Instr) (s t : State), i.regsInRange = true → exec i s = .next t →
    t.fault = s.fault ∨ ∃ n : Int, (n = -1 ∨ n = 256) ∧ t = atStackFault i.op.opcode n s)

/-- 60_exceptions.md R212 (decision D7): a step that faults changes nothing but the fault record. -/
def Obligations.FaultsArePrecise : Prop :=
  ∀ (s t : State) (r : FaultRecord), step s = .next t → t.fault = some r → t = { s with fault := some r }

/-- 40_step.md R120 (derived there): a Running machine always steps. -/
def Obligations.EveryRunningStepCompletes : Prop :=
  ∀ s : State, s.running = true → ∃ t, step s = .next t

/-- 40_step.md R101, R116, R117 (decisions D6, D18): no step from Halted or Faulted, and a step request there is ignored
(log entry 3). -/
def Obligations.NoStepUnlessRunning : Prop :=
  ∀ s : State, s.running = false →
    (∀ t, step s ≠ .next t) ∧ s.stepRequest = s ∧
    ∀ l : Bool, ({ state := s, loadOpen := l } : Block).stepRequest = { state := s, loadOpen := l }

/-- 40_step.md R115 (decision D6): what a Running step leads to. -/
def Obligations.StateMachineTransitions : Prop :=
  ∀ s t : State, s.running = true → step s = .next t →
    (t.status = .halted ↔ s.pc.toNat ≤ 253 ∧ s.byteAt s.pc.toNat = 0x01#8) ∧
    (∀ r, t.status = .faulted r ↔ t.fault = some r) ∧
    (t.fault ≠ none → t.halted = false)

/-- 10_state.md R36. -/
def Obligations.OnlyHltSetsHalted : Prop :=
  State.reset.halted = false ∧
  (∀ s : State, ∃ t, exec .hlt s = .next t ∧ t.halted = true) ∧
  (∀ (i : Instr) (s t : State), i ≠ .hlt → exec i s = .next t → t.halted = s.halted) ∧
  (∀ (n : Nat) (k : Block), k.state.halted = true → (∀ t, step k.state ≠ .next t) ∧ Block.runRequest n k = k) ∧
  (∀ (p : List Byte) (k : Block), k.state.halted = true →
    (k.load p).state.halted = true ∧ k.stepRequest.state.halted = true) ∧
  (∀ k : Block, k.reset.state.halted = false) ∧
  (∀ (i : Instr) (s : State) (h : Bool), ∃ t u, exec i s = .next t ∧ exec i { s with halted := h } = .next u ∧
    { u with halted := t.halted } = t) ∧
  (∀ k : Block, k.readStatus = .halted ↔ k.state.halted = true)

/-- 10_state.md R31. -/
def Obligations.OnlyCmpWritesFlags : Prop :=
  (∀ (i : Instr) (s t : State), (∀ a b : Byte, i ≠ .cmp a b) → exec i s = .next t → t.fl = s.fl) ∧
  (∀ (ra rb : Fin 8) (s : State), ∃ t, exec (.cmp (regByte ra) (regByte rb)) s = .next t ∧
    (t.fl = 0b001#8 ∨ t.fl = 0b010#8 ∨ t.fl = 0b100#8))

/-- 10_state.md R32: two states that differ only in FL. JEQ and JNE go alike when bit 0 is alike, every other instruction
always, each state keeping its own FL unless CMP writes both; and JEQ and JNE do read bit 0. -/
def Obligations.OnlyJeqAndJneReadFlags : Prop :=
  (∀ (i : Instr) (s : State) (v : Byte),
    (v.getLsbD 0 = s.fl.getLsbD 0 ∨ ((∀ a : Byte, i ≠ .jeq a) ∧ (∀ a : Byte, i ≠ .jne a))) →
    ∃ t u, exec i s = .next t ∧ exec i { s with fl := v } = .next u ∧ { u with fl := t.fl } = t ∧
      ((t.fl = s.fl ∧ u.fl = v) ∨ t.fl = u.fl)) ∧
  (∃ (s : State) (v : Byte), ∀ i ∈ [Instr.jeq 0#8, Instr.jne 0#8], ∀ t u,
    exec i s = .next t → exec i { s with fl := v } = .next u → t.pc ≠ u.pc) ∧
  (∀ k : Block, k.readFL = k.state.fl)

/-! ### HLT, LDI, PRN -/

/-- 40_step.md R110. -/
def Obligations.HltHalts : Prop :=
  NullaryForm 0x01#8 .hlt ∧
  ∀ s : State, ∃ t, exec .hlt s = .next t ∧ t.halted = true ∧ Advances 1 s t ∧
    SameRegs s t ∧ t.fl = s.fl ∧ SameMemory s t ∧ t.out = s.out ∧ t.fault = s.fault ∧
    t.status = .halted ∧ (∀ u, step t ≠ .next u)

/-- 41_data.md R130. The immediate is any byte, and register 7 is written like any other. -/
def Obligations.LdiWritesTheImmediate : Prop :=
  RunsAs 0x82#8 .ldi ∧ (∀ a b : Byte, encode (.ldi a b) = [0x82#8, a, b]) ∧
  (∀ (a b : Byte) (s : State), 7 < a.toNat → exec (.ldi a b) s = .next (atRegisterFault 0x82#8 a s)) ∧
  ∀ (ra : Fin 8) (b : Byte) (s : State), ∃ t, exec (.ldi (regByte ra) b) s = .next t ∧
    t.reg ra = b ∧ SameRegsBut ra s t ∧ Advances 3 s t ∧
    t.fl = s.fl ∧ SameMemory s t ∧ t.out = s.out ∧ SameStatus s t

/-- 41_data.md R131 (decision D16). -/
def Obligations.PrnEmitsTheRegister : Prop :=
  UnaryForm 0x47#8 .prn ∧
  ∀ (ra : Fin 8) (s : State), ∃ t, exec (.prn (regByte ra)) s = .next t ∧
    t.out = s.out ++ [s.reg ra] ∧ SameRegs s t ∧ Advances 2 s t ∧
    t.fl = s.fl ∧ SameMemory s t ∧ SameStatus s t

/-! ### The ALU -/

/-- 42_alu.md R142. -/
def Obligations.MulWritesTheLowProduct : Prop :=
  AluRule 0xA2#8 .mul (fun x y => (x * y) % 256)

/-- 42_alu.md R143 (opcode byte: decision D2). -/
def Obligations.AddWritesTheSum : Prop :=
  AluRule 0xA0#8 .add (fun x y => (x + y) % 256)

/-- 42_alu.md R144 (decisions D1, D13). -/
def Obligations.SubWritesTheDifference : Prop :=
  AluRule 0xA1#8 .sub (fun x y => (x + 256 - y) % 256)

/-- 42_alu.md R145, R146, R147 (decision D1). -/
def Obligations.BitwiseInstructions : Prop :=
  AluRule 0xA8#8 .and (fun x y => x &&& y) ∧
  AluRule 0xAA#8 .or (fun x y => x ||| y) ∧
  AluRule 0xAB#8 .xor (fun x y => x ^^^ y)

/-- 42_alu.md R148 (decisions D1, D13). -/
def Obligations.NotWritesTheComplement : Prop :=
  UnaryForm 0x69#8 .not ∧
  ∀ (ra : Fin 8) (s : State), ∃ t, exec (.not (regByte ra)) s = .next t ∧
    (t.reg ra).toNat = 255 - (s.reg ra).toNat ∧ SameRegsBut ra s t ∧ Advances 2 s t ∧
    t.fl = s.fl ∧ SameMemory s t ∧ t.out = s.out ∧ SameStatus s t

/-- 42_alu.md R149 (decisions D1, D12): the count is not masked, and a count of 8 or more gives 0. -/
def Obligations.ShlShiftsByTheWholeRegister : Prop :=
  AluRule 0xAC#8 .shl (fun x y => (x * 2 ^ y) % 256) ∧
  ∀ (ra rb : Fin 8) (s t : State), 8 ≤ (s.reg rb).toNat →
    exec (.shl (regByte ra) (regByte rb)) s = .next t → t.reg ra = 0#8

/-- 42_alu.md R150 (decisions D1, D12): logical, the count not masked, and a count of 8 or more gives 0. -/
def Obligations.ShrShiftsByTheWholeRegister : Prop :=
  AluRule 0xAD#8 .shr (fun x y => x / 2 ^ y) ∧
  ∀ (ra rb : Fin 8) (s t : State), 8 ≤ (s.reg rb).toNat →
    exec (.shr (regByte ra) (regByte rb)) s = .next t → t.reg ra = 0#8

/-! ### Compare and branch -/

/-- 44_compare_branch.md R190 and R191 (opcode byte: decision D2; R191 derived there): unsigned, exactly one bit, the
whole FL. -/
def Obligations.CmpSetsExactlyOneFlag : Prop :=
  BinaryForm 0xA7#8 .cmp ∧
  ∀ (ra rb : Fin 8) (s : State), ∃ t, exec (.cmp (regByte ra) (regByte rb)) s = .next t ∧
    ((s.reg ra).toNat = (s.reg rb).toNat → t.fl = 0b00000001#8) ∧
    ((s.reg rb).toNat < (s.reg ra).toNat → t.fl = 0b00000010#8) ∧
    ((s.reg ra).toNat < (s.reg rb).toNat → t.fl = 0b00000100#8) ∧
    (flagE t.fl = decide (s.reg ra = s.reg rb) ∧ flagG t.fl = decide ((s.reg rb).toNat < (s.reg ra).toNat) ∧
      flagL t.fl = decide ((s.reg ra).toNat < (s.reg rb).toNat)) ∧
    SameRegs s t ∧ Advances 3 s t ∧ SameMemory s t ∧ t.out = s.out ∧ SameStatus s t

/-- 44_compare_branch.md R192 (opcode byte: decision D2). -/
def Obligations.JmpGoesToTheRegister : Prop :=
  UnaryForm 0x54#8 .jmp ∧
  ∀ (ra : Fin 8) (s : State), ∃ t, exec (.jmp (regByte ra)) s = .next t ∧
    t.pc.toNat = (s.reg ra).toNat ∧ SameRegs s t ∧
    t.fl = s.fl ∧ SameMemory s t ∧ t.out = s.out ∧ SameStatus s t

/-- 44_compare_branch.md R193 (decisions D2, D3, D9): taken when FL bit 0 is 1. The register is checked either way. -/
def Obligations.JeqGoesWhenEqual : Prop :=
  UnaryForm 0x55#8 .jeq ∧
  ∀ (ra : Fin 8) (s : State), ∃ t, exec (.jeq (regByte ra)) s = .next t ∧
    (s.fl.getLsbD 0 = true → t.pc.toNat = (s.reg ra).toNat) ∧ (s.fl.getLsbD 0 = false → Advances 2 s t) ∧
    SameRegs s t ∧ t.fl = s.fl ∧ SameMemory s t ∧ t.out = s.out ∧ SameStatus s t

/-- 44_compare_branch.md R194 (decisions D2, D3, D9): taken when FL bit 0 is 0. The register is checked either way. -/
def Obligations.JneGoesWhenNotEqual : Prop :=
  UnaryForm 0x56#8 .jne ∧
  ∀ (ra : Fin 8) (s : State), ∃ t, exec (.jne (regByte ra)) s = .next t ∧
    (s.fl.getLsbD 0 = false → t.pc.toNat = (s.reg ra).toNat) ∧ (s.fl.getLsbD 0 = true → Advances 2 s t) ∧
    SameRegs s t ∧ t.fl = s.fl ∧ SameMemory s t ∧ t.out = s.out ∧ SameStatus s t

/-! ### The stack -/

/-- 43_stack.md R171 (decisions D2, D11, D28): the store is at the decremented SP, and PUSH R7 stores that SP. -/
def Obligations.PushStoresBelowTheStack : Prop :=
  UnaryForm 0x45#8 .push ∧
  (∀ (ra : Fin 8) (s : State), s.mem.wf = true → 0 < (s.reg 7).toNat →
    ∃ t, exec (.push (regByte ra)) s = .next t ∧
      (t.reg 7).toNat + 1 = (s.reg 7).toNat ∧ SameRegsBut 7 s t ∧
      t.byteAt ((s.reg 7).toNat - 1) = (if ra = 7 then s.reg 7 - 1#8 else s.reg ra) ∧
      SameMemoryBut ((s.reg 7).toNat - 1) s t ∧ Advances 2 s t ∧ t.fl = s.fl ∧ t.out = s.out ∧ SameStatus s t) ∧
  (∀ (ra : Fin 8) (s : State), (s.reg 7).toNat = 0 →
    exec (.push (regByte ra)) s = .next (atStackFault 0x45#8 (-1) s))

/-- 43_stack.md R172 (decisions D2, D11, D28): POP R7 loads SP and increments the loaded value. -/
def Obligations.PopLoadsTheTop : Prop :=
  UnaryForm 0x46#8 .pop ∧
  (∀ (ra : Fin 8) (s : State), ra ≠ 7 → (s.reg 7).toNat < 255 →
    ∃ t, exec (.pop (regByte ra)) s = .next t ∧
      t.reg ra = s.byteAt (s.reg 7).toNat ∧ (t.reg 7).toNat = (s.reg 7).toNat + 1 ∧
      (∀ i : Fin 8, i ≠ ra → i ≠ 7 → t.reg i = s.reg i) ∧
      SameMemory s t ∧ Advances 2 s t ∧ t.fl = s.fl ∧ t.out = s.out ∧ SameStatus s t) ∧
  (∀ s : State, (s.byteAt (s.reg 7).toNat).toNat < 255 →
    ∃ t, exec (.pop (regByte 7)) s = .next t ∧
      (t.reg 7).toNat = (s.byteAt (s.reg 7).toNat).toNat + 1 ∧ SameRegsBut 7 s t ∧
      SameMemory s t ∧ Advances 2 s t ∧ t.fl = s.fl ∧ t.out = s.out ∧ SameStatus s t) ∧
  (∀ (ra : Fin 8) (s : State), ra ≠ 7 → (s.reg 7).toNat = 255 →
    exec (.pop (regByte ra)) s = .next (atStackFault 0x46#8 256 s)) ∧
  (∀ s : State, (s.byteAt (s.reg 7).toNat).toNat = 255 →
    exec (.pop (regByte 7)) s = .next (atStackFault 0x46#8 256 s))

/-- 43_stack.md R173 and R175 (decisions D2, D11, D28; R175 derived there): the return address is PC + 2, and CALL R7
jumps to the decremented SP. -/
def Obligations.CallPushesTheReturnAddress : Prop :=
  UnaryForm 0x50#8 .call ∧
  (∀ (ra : Fin 8) (s : State), s.mem.wf = true → s.pc.toNat ≤ 253 → 0 < (s.reg 7).toNat →
    ∃ t, exec (.call (regByte ra)) s = .next t ∧
      (t.reg 7).toNat + 1 = (s.reg 7).toNat ∧ SameRegsBut 7 s t ∧
      (t.byteAt ((s.reg 7).toNat - 1)).toNat = s.pc.toNat + 2 ∧ SameMemoryBut ((s.reg 7).toNat - 1) s t ∧
      t.pc.toNat = (if ra = 7 then (s.reg 7).toNat - 1 else (s.reg ra).toNat) ∧
      t.fl = s.fl ∧ t.out = s.out ∧ SameStatus s t) ∧
  (∀ (ra : Fin 8) (s : State), (s.reg 7).toNat = 0 →
    exec (.call (regByte ra)) s = .next (atStackFault 0x50#8 (-1) s))

/-- 43_stack.md R174 (decisions D2, D28). -/
def Obligations.RetPopsThePc : Prop :=
  NullaryForm 0x11#8 .ret ∧
  (∀ s : State, (s.reg 7).toNat < 255 →
    ∃ t, exec .ret s = .next t ∧
      t.pc.toNat = (s.byteAt (s.reg 7).toNat).toNat ∧ (t.reg 7).toNat = (s.reg 7).toNat + 1 ∧ SameRegsBut 7 s t ∧
      SameMemory s t ∧ t.fl = s.fl ∧ t.out = s.out ∧ SameStatus s t) ∧
  (∀ s : State, (s.reg 7).toNat = 255 → exec .ret s = .next (atStackFault 0x11#8 256 s))

/-- 43_stack.md R177 (a) and (b) (derived there): PUSH then POP of the same register restores it and SP, register 7
included, and PUSH Rn then POP Rm copies. -/
def Obligations.PushThenPop : Prop :=
  (∀ (r : Fin 8) (s : State), s.mem.wf = true → 0 < (s.reg 7).toNat →
    ∃ t u, exec (.push (regByte r)) s = .next t ∧ exec (.pop (regByte r)) t = .next u ∧
      SameRegs s u ∧ u.fl = s.fl ∧ u.out = s.out ∧ SameStatus s u) ∧
  (∀ (n m : Fin 8) (s : State), n ≠ 7 → m ≠ 7 → s.mem.wf = true → 0 < (s.reg 7).toNat →
    ∃ t u, exec (.push (regByte n)) s = .next t ∧ exec (.pop (regByte m)) t = .next u ∧
      u.reg m = s.reg n ∧ SameRegsBut m s u)

/-- 43_stack.md R177 (c) (derived there): a RET from any state that has SP and the byte at SP as CALL left them resumes
after the CALL with SP restored. -/
def Obligations.CallThenRet : Prop :=
  ∀ (r : Fin 8) (s : State), s.mem.wf = true → s.pc.toNat ≤ 253 → 0 < (s.reg 7).toNat →
    ∃ t, exec (.call (regByte r)) s = .next t ∧
      ∀ u : State, u.reg 7 = t.reg 7 → u.byteAt (t.reg 7).toNat = t.byteAt (t.reg 7).toNat →
        ∃ v, exec .ret u = .next v ∧ v.pc.toNat = s.pc.toNat + 2 ∧ v.reg 7 = s.reg 7

/-- 43_stack.md R176 (derived there): pushes nest to the depth SP allows; from 0xF4 the 245th faults. -/
def Obligations.PushesNestToTheBound : Prop :=
  (∀ (r : Fin 8) (s : State) (n : Nat), n ≤ (s.reg 7).toNat →
    ∃ t, execTimes (.push (regByte r)) n s = some t ∧ (t.reg 7).toNat + n = (s.reg 7).toNat) ∧
  (∀ (r : Fin 8) (s : State), s.reg 7 = 0xF4#8 →
    ∃ t, execTimes (.push (regByte r)) 244 s = some t ∧ t.reg 7 = 0#8 ∧
      exec (.push (regByte r)) t = .next (atStackFault 0x45#8 (-1) t))

/-! ### Memory, output, PC -/

/-- 20_memory.md section 1 and 60_exceptions.md section 1 (R51, R211; decision D8): the two primitives of the memory port,
on every integer address. The canonical form is the model's choice (log entry 5); the PC and opcode in the port's fault
record are read from R211 (log entry 12). -/
def Obligations.MemoryPortReadsAndWrites : Prop :=
  (∀ (s : State) (op : Option Byte) (n : Nat), n ≤ 255 → memRead s op (n : Int) = .ok (s.byteAt n)) ∧
  (∀ (s : State) (op : Option Byte) (v : Byte) (n : Nat), s.mem.wf = true → n ≤ 255 →
    ∃ t, memWrite s op (n : Int) v = .ok t ∧ t.byteAt n = v ∧ SameMemoryBut n s t ∧ t.mem.wf = true ∧
      { t with mem := s.mem } = s) ∧
  (∀ (s : State) (op : Option Byte) (v : Byte) (addr : Int), addr < 0 ∨ 255 < addr →
    memRead s op addr = .error { cause := .addressingFault, kind := some .memory, pc := s.pc, opcode := op, index := some addr } ∧
    memWrite s op addr v = .error { cause := .addressingFault, kind := some .memory, pc := s.pc, opcode := op, index := some addr })

/-- 20_memory.md section 1 and section 9 (R52, R68; decision D7): a byte changes only where the step has a write
transaction, it then holds the value written, and a step has at most one, by PUSH or CALL. -/
def Obligations.MemoryChangesOnlyByWrites : Prop :=
  ∀ s t : State, s.mem.wf = true → step s = .next t →
    (∀ n : Nat, t.byteAt n ≠ s.byteAt n → ∃ v, PortEvent.memWrite n v ∈ stepEvents s) ∧
    (∀ (n : Nat) (v : Byte), PortEvent.memWrite n v ∈ stepEvents s →
      t.byteAt n = v ∧ n + 1 = (s.reg 7).toNat ∧ (s.byteAt s.pc.toNat = 0x45#8 ∨ s.byteAt s.pc.toNat = 0x50#8))

/-- 20_memory.md section 8 (R66; decision D16) and 10_state.md R44 (derived there): `out` only grows, by at most the one
value of the step's output transaction, which is one exactly when a PRN commits. -/
def Obligations.OutputGrowsByWhatIsEmitted : Prop :=
  ∀ s t : State, step s = .next t →
    t.out = s.out ++ emitted (stepEvents s) ∧ (emitted (stepEvents s)).length ≤ 1 ∧
    (emitted (stepEvents s) ≠ [] ↔ s.pc.toNat ≤ 253 ∧ s.byteAt s.pc.toNat = 0x47#8 ∧ t.fault = none)

/-- 20_memory.md section 1 (R53; decision D21): a program cannot read the output port. -/
def Obligations.ProgramsCannotReadOutput : Prop :=
  ∀ (s t : State) (l : List Byte), step s = .next t →
    ∃ es : List Byte, t.out = s.out ++ es ∧ step { s with out := l } = .next { t with out := l ++ es }

/-- 40_step.md R113. -/
def Obligations.SetPcClass : Prop :=
  (∀ o : Op, o.setsPc ≠ .no ↔ o ∈ [Op.call, Op.ret, Op.jmp, Op.jeq, Op.jne]) ∧
  (∀ o : Op, o.setsPc ≠ .no ↔
    ∃ (i : Instr) (s t : State), i.op = o ∧ s.pc.toNat ≤ 253 ∧ exec i s = .next t ∧ t.fault = none ∧
      t.pc.toNat ≠ s.pc.toNat + o.width) ∧
  (∀ (a : Fin 8) (s t : State), s.fl.getLsbD 0 = false → exec (.jeq (regByte a)) s = .next t → Advances 2 s t) ∧
  (∀ (a : Fin 8) (s t : State), s.fl.getLsbD 0 = true → exec (.jne (regByte a)) s = .next t → Advances 2 s t)

/-! ### The host's ports and the profile -/

/-- 70_reset_and_hazards.md R244, R246 (decision D17): the accepted load from reset, which closes the load port (log
entry 6). -/
def Obligations.LoadPlacesTheProgram : Prop :=
  ∀ (p : List Byte) (k : Block), p.length ≤ 256 →
    ((k.reset.load p).loadOpen = false ∧
      (∀ n : Nat, (k.reset.load p).state.byteAt n = p.getD n 0#8) ∧
      { (k.reset.load p).state with mem := State.reset.mem } = State.reset)

/-- 70_reset_and_hazards.md R245, R246 (decision D17): an overlong load writes nothing and faults. That it closes the load
port is the model's port bit (log entry 6). -/
def Obligations.OverlongLoadFaults : Prop :=
  ∀ (p : List Byte) (k : Block), 256 < p.length →
    (k.reset.load p).state =
      { State.reset with fault := some { cause := .addressingFault, kind := some .load, pc := 0#9, opcode := none,
                                         index := some (p.length : Int) } } ∧
    (k.reset.load p).loadOpen = false

/-- 70_reset_and_hazards.md R246 (decision D17): after a load, or after a step, a load has no effect (log entry 6). -/
def Obligations.LoadIsRefusedLater : Prop :=
  ∀ (p q : List Byte) (k : Block),
    (k.load p).load q = k.load p ∧
    (k.state.running = true → k.stepRequest.load q = k.stepRequest) ∧
    (k.loadOpen = false → ∀ n : Nat, (Block.runRequest n k).load q = Block.runRequest n k)

/-- 40_step.md R111 and 70_reset_and_hazards.md R258 (decision D18): a run is steps while Running; runs compose, a run
that has ended stays as it is, and a run that is not Running at its start does nothing (log entry 10). -/
def Obligations.RunRepeatsSteps : Prop :=
  (∀ k : Block, Block.runRequest 1 k = k.stepRequest) ∧
  (∀ (n m : Nat) (k : Block), Block.runRequest (n + m) k = Block.runRequest m (Block.runRequest n k)) ∧
  (∀ (n m : Nat) (k : Block), n ≤ m → (Block.runRequest n k).state.running = false →
    Block.runRequest m k = Block.runRequest n k) ∧
  (∀ (n : Nat) (k : Block), k.state.running = false → Block.runRequest n k = k)

/-- 70_reset_and_hazards.md sections 1 and 2 (R240, R244, R246; decisions D3, D17, D22): reset from anywhere gives the one
reset state, Running. That it opens the load port is the model's port bit (log entry 6). -/
def Obligations.ResetPortRecreatesTheState : Prop :=
  ∀ k : Block, k.reset.state = State.reset ∧ k.reset.loadOpen = true ∧ k.reset.readStatus = .running

/-- 10_state.md R38 and 70_reset_and_hazards.md R255, R256 (decisions D6, D8, D21): what the status and introspection
ports report. -/
def Obligations.StatusAndInspectionPorts : Prop :=
  ∀ k : Block,
    (k.readStatus = .running ↔ k.state.halted = false ∧ k.state.fault = none) ∧
    (k.readStatus = .halted ↔ k.state.halted = true) ∧
    (∀ r, (k.state.halted = true → k.state.fault = none) → (k.readStatus = .faulted r ↔ k.state.fault = some r)) ∧
    (∀ i : Fin 8, k.readReg i = k.state.reg i) ∧ (∀ a : Byte, k.readMem a = k.state.byteAt a.toNat) ∧
    k.readPC = k.state.pc ∧ k.readFL = k.state.fl ∧ k.readHalted = k.state.halted

/-- 00_scope.md R8 (decision D1): in LS8-DOC the seven extended opcodes are illegal and everything else is as in LS8-CORE. -/
def Obligations.Ls8DocProfile : Prop :=
  ∀ s : State,
    (s.running = true → s.pc.toNat ≤ 253 →
      s.byteAt s.pc.toNat ∈ [0x69#8, 0xA1#8, 0xA8#8, 0xAA#8, 0xAB#8, 0xAC#8, 0xAD#8] →
      stepIn false s = .next (atIllegalFault (s.byteAt s.pc.toNat) s)) ∧
    (s.byteAt s.pc.toNat ∉ [0x69#8, 0xA1#8, 0xA8#8, 0xAA#8, 0xAB#8, 0xAC#8, 0xAD#8] ∨ 253 < s.pc.toNat ∨ s.running = false →
      stepIn false s = stepIn true s) ∧
    step s = stepIn true s

/-! ### The strict mode -/

/-- 10_state.md section 8 and 00_scope.md section 4 (R43; decision D3): the strict step is the hardware's step as long as
the instruction at PC reads nothing unwritten, the block's own faults coming first; else `UnwrittenRead` is raised for the
first unwritten item it reads; a committed step leaves unwritten exactly what was and is not written by it. Where in the
instruction the fault comes is the model's choice (log entry 11). -/
def Obligations.StrictStepIsTheStepOnWrittenState : Prop :=
  (∀ (k : StrictState) (t : State), step k.state = .next t → t.fault ≠ none →
    strictStep k = .next { state := t, unwritten := k.unwritten }) ∧
  (∀ (k : StrictState) (t : State) (i : Instr), step k.state = .next t → t.fault = none → DecodesAtPc k.state i →
    (∀ x ∈ readItems i k.state, x ∉ k.unwritten) →
    ∃ l, strictStep k = .next l ∧ l.state = t ∧ ∀ x, x ∈ l.unwritten ↔ x ∈ k.unwritten ∧ x ∉ writeItems i) ∧
  (∀ (k : StrictState) (t : State) (i : Instr) (before after : List StrictItem) (x : StrictItem),
    step k.state = .next t → t.fault = none → DecodesAtPc k.state i →
    readItems i k.state = before ++ x :: after → (∀ y ∈ before, y ∉ k.unwritten) → x ∈ k.unwritten →
    strictStep k = .fault (.unwrittenRead x)) ∧
  (∀ (k : StrictState) (f : Fault), step k.state = .fault f → strictStep k = .fault (.notRunning f)) ∧
  (∀ k l : StrictState, strictStep k = .next l → step k.state = .next l.state ∧ ∀ x ∈ l.unwritten, x ∈ k.unwritten) ∧
  (∀ (k : StrictState) (x : StrictItem), strictStep k = .fault (.unwrittenRead x) →
    x ∈ k.unwritten ∧ ∃ i t, DecodesAtPc k.state i ∧ x ∈ readItems i k.state ∧ step k.state = .next t ∧ t.fault = none) ∧
  (∀ s t : State, step s = .next t → strictStep { state := s, unwritten := [] } = .next { state := t, unwritten := [] })

/-- 10_state.md section 8 (R43; decision D3): in the strict mode no outcome depends on the values of what is unwritten,
and the stack pointer stays written. -/
def Obligations.StrictOutcomesIgnoreUnwrittenValues : Prop :=
  ∀ (unwritten : List StrictItem) (s t : State), .reg 7#8 ∉ unwritten → SameWritten unwritten s t →
    SameStrictOutcome (strictStep { state := s, unwritten := unwritten }) (strictStep { state := t, unwritten := unwritten }) ∧
    ∀ k, strictStep { state := s, unwritten := unwritten } = .next k → .reg 7#8 ∉ k.unwritten

/-- 10_state.md section 8 and section 4 (R43, R31, R32; decision D3): what the strict mode holds unwritten at reset, and
which instructions write or read a register or FL in it; JEQ and JNE read their register only when they jump (log
entry 11). -/
def Obligations.StrictModeReadsAndWrites : Prop :=
  StrictState.reset.state = State.reset ∧
  (∀ x, x ∈ StrictState.reset.unwritten ↔ x = .fl ∨ ∃ r : Fin 8, r ≠ 7 ∧ x = .reg (regByte r)) ∧
  (∀ i : Instr, .fl ∈ writeItems i ↔ ∃ a b, i = .cmp a b) ∧
  (∀ (i : Instr) (r : Byte), .reg r ∈ writeItems i ↔
    i = .pop r ∨ i = .not r ∨ ∃ b, i ∈ [Instr.ldi r b, .mul r b, .add r b, .sub r b, .and r b, .or r b, .xor r b,
      .shl r b, .shr r b]) ∧
  (∀ (i : Instr) (s : State), .fl ∈ readItems i s ↔ ∃ a, i = .jeq a ∨ i = .jne a) ∧
  (∀ (i : Instr) (s : State) (r : Byte), .reg r ∈ readItems i s ↔
    i ∈ [Instr.push r, .prn r, .call r, .jmp r, .not r] ∨
    (i = .jeq r ∧ s.fl.getLsbD 0 = true) ∨ (i = .jne r ∧ s.fl.getLsbD 0 = false) ∨
    ∃ a b, (r = a ∨ r = b) ∧ i ∈ [Instr.mul a b, .add a b, .sub a b, .and a b, .or a b, .xor a b, .shl a b, .shr a b,
      .cmp a b])
end

