-- ==== Sys2Proof/Laws/Alu.lean ====
section
/-! SUPPORT. Each function of the ALU's table as exact arithmetic on unsigned values (42_alu.md R141, R153). -/

namespace Sys2Proof.Machine

variable (va vb : Byte)

theorem aluAdd_toNat : (aluAdd va vb).toNat = (va.toNat + vb.toNat) % 256 := by simp [aluAdd]

theorem aluSub_toNat : (aluSub va vb).toNat = (va.toNat + 256 - vb.toNat) % 256 := by
  have := va.isLt
  have := vb.isLt
  simp only [aluSub, BitVec.toNat_ofInt]
  omega

theorem aluMul_toNat : (aluMul va vb).toNat = (va.toNat * vb.toNat) % 256 := by simp [aluMul]

theorem aluAnd_toNat : (aluAnd va vb).toNat = va.toNat &&& vb.toNat := by simp [aluAnd]

theorem aluOr_toNat : (aluOr va vb).toNat = va.toNat ||| vb.toNat := by simp [aluOr]

theorem aluXor_toNat : (aluXor va vb).toNat = va.toNat ^^^ vb.toNat := by simp [aluXor]

theorem aluNot_toNat : (aluNot va).toNat = 255 - va.toNat := by
  have := va.isLt
  simp [aluNot]
  omega

theorem aluShl_toNat : (aluShl va vb).toNat = (va.toNat * 2 ^ vb.toNat) % 256 := by simp [aluShl]

theorem aluShr_toNat : (aluShr va vb).toNat = va.toNat / 2 ^ vb.toNat := by
  have h1 : va.toNat / 2 ^ vb.toNat ≤ va.toNat := Nat.div_le_self ..
  have h2 := va.isLt
  simp only [aluShr, BitVec.toNat_ofNat]
  exact Nat.mod_eq_of_lt (by omega)

end Sys2Proof.Machine
end

