-- ==== Sys2Proof/Laws/State.lean ====
section
/-! SUPPORT. One lemma per field and update of State, each true by `rfl`, and the register file's read after write. -/

namespace Sys2Proof.Machine

section
variable (s : State) (i j : Fin 8) (v : Byte) (p : PcWord) (e : FaultRecord) (n : Nat)

/-! ### The register file -/

@[simp] theorem State.reg_setReg : (s.setReg i v).reg j = if j = i then v else s.reg j := by
  simp [State.setReg, State.reg, Vector.getElem_set, Fin.ext_iff, eq_comm]

theorem State.reg_setReg_same : (s.setReg i v).reg i = v := by simp

theorem State.setReg_self : s.setReg i (s.reg i) = s := by
  simp [State.setReg, State.reg]

theorem State.sp_eq : s.sp = s.reg 7 := rfl

theorem State.setSp_eq : s.setSp v = s.setReg 7 v := rfl

@[simp] theorem State.sp_setSp : (s.setSp v).sp = v := by simp [State.sp_eq, State.setSp_eq]

@[simp] theorem State.reg_setSp : (s.setSp v).reg j = if j = 7 then v else s.reg j := by
  simp [State.setSp_eq]

@[simp] theorem State.sp_setReg : (s.setReg i v).sp = if i = 7 then v else s.sp := by
  simp [State.sp_eq, eq_comm]

/-! ### setReg and setSp -/

@[simp] theorem State.setReg_mem : (s.setReg i v).mem = s.mem := rfl
@[simp] theorem State.setReg_pc : (s.setReg i v).pc = s.pc := rfl
@[simp] theorem State.setReg_fl : (s.setReg i v).fl = s.fl := rfl
@[simp] theorem State.setReg_halted : (s.setReg i v).halted = s.halted := rfl
@[simp] theorem State.setReg_fault : (s.setReg i v).fault = s.fault := rfl
@[simp] theorem State.setReg_out : (s.setReg i v).out = s.out := rfl
@[simp] theorem State.setReg_byteAt : (s.setReg i v).byteAt n = s.byteAt n := rfl
@[simp] theorem State.setSp_mem : (s.setSp v).mem = s.mem := rfl
@[simp] theorem State.setSp_pc : (s.setSp v).pc = s.pc := rfl
@[simp] theorem State.setSp_fl : (s.setSp v).fl = s.fl := rfl
@[simp] theorem State.setSp_halted : (s.setSp v).halted = s.halted := rfl
@[simp] theorem State.setSp_fault : (s.setSp v).fault = s.fault := rfl
@[simp] theorem State.setSp_out : (s.setSp v).out = s.out := rfl
@[simp] theorem State.setSp_byteAt : (s.setSp v).byteAt n = s.byteAt n := rfl

/-! ### setFl -/

@[simp] theorem State.setFl_mem : (s.setFl v).mem = s.mem := rfl
@[simp] theorem State.setFl_reg : (s.setFl v).reg i = s.reg i := rfl
@[simp] theorem State.setFl_sp : (s.setFl v).sp = s.sp := rfl
@[simp] theorem State.setFl_pc : (s.setFl v).pc = s.pc := rfl
@[simp] theorem State.setFl_fl : (s.setFl v).fl = v := rfl
@[simp] theorem State.setFl_halted : (s.setFl v).halted = s.halted := rfl
@[simp] theorem State.setFl_fault : (s.setFl v).fault = s.fault := rfl
@[simp] theorem State.setFl_out : (s.setFl v).out = s.out := rfl
@[simp] theorem State.setFl_byteAt : (s.setFl v).byteAt n = s.byteAt n := rfl

/-! ### setPc -/

@[simp] theorem State.setPc_mem : (s.setPc p).mem = s.mem := rfl
@[simp] theorem State.setPc_x : (s.setPc p).x = s.x := rfl
@[simp] theorem State.setPc_reg : (s.setPc p).reg i = s.reg i := rfl
@[simp] theorem State.setPc_sp : (s.setPc p).sp = s.sp := rfl
@[simp] theorem State.setPc_pc : (s.setPc p).pc = p := rfl
@[simp] theorem State.setPc_fl : (s.setPc p).fl = s.fl := rfl
@[simp] theorem State.setPc_halted : (s.setPc p).halted = s.halted := rfl
@[simp] theorem State.setPc_fault : (s.setPc p).fault = s.fault := rfl
@[simp] theorem State.setPc_out : (s.setPc p).out = s.out := rfl
@[simp] theorem State.setPc_byteAt : (s.setPc p).byteAt n = s.byteAt n := rfl

/-! ### halt and emit -/

@[simp] theorem State.halt_mem : s.halt.mem = s.mem := rfl
@[simp] theorem State.halt_reg : s.halt.reg i = s.reg i := rfl
@[simp] theorem State.halt_sp : s.halt.sp = s.sp := rfl
@[simp] theorem State.halt_pc : s.halt.pc = s.pc := rfl
@[simp] theorem State.halt_fl : s.halt.fl = s.fl := rfl
@[simp] theorem State.halt_halted : s.halt.halted = true := rfl
@[simp] theorem State.halt_fault : s.halt.fault = s.fault := rfl
@[simp] theorem State.halt_out : s.halt.out = s.out := rfl
@[simp] theorem State.halt_byteAt : s.halt.byteAt n = s.byteAt n := rfl
@[simp] theorem State.emit_mem : (s.emit v).mem = s.mem := rfl
@[simp] theorem State.emit_reg : (s.emit v).reg i = s.reg i := rfl
@[simp] theorem State.emit_sp : (s.emit v).sp = s.sp := rfl
@[simp] theorem State.emit_pc : (s.emit v).pc = s.pc := rfl
@[simp] theorem State.emit_fl : (s.emit v).fl = s.fl := rfl
@[simp] theorem State.emit_halted : (s.emit v).halted = s.halted := rfl
@[simp] theorem State.emit_fault : (s.emit v).fault = s.fault := rfl
@[simp] theorem State.emit_out : (s.emit v).out = s.out ++ [v] := rfl
@[simp] theorem State.emit_byteAt : (s.emit v).byteAt n = s.byteAt n := rfl

/-! ### fail -/

@[simp] theorem State.fail_mem : (s.fail e).mem = s.mem := rfl
@[simp] theorem State.fail_reg : (s.fail e).reg i = s.reg i := rfl
@[simp] theorem State.fail_sp : (s.fail e).sp = s.sp := rfl
@[simp] theorem State.fail_pc : (s.fail e).pc = s.pc := rfl
@[simp] theorem State.fail_fl : (s.fail e).fl = s.fl := rfl
@[simp] theorem State.fail_halted : (s.fail e).halted = s.halted := rfl
@[simp] theorem State.fail_fault : (s.fail e).fault = some e := rfl
@[simp] theorem State.fail_out : (s.fail e).out = s.out := rfl
@[simp] theorem State.fail_byteAt : (s.fail e).byteAt n = s.byteAt n := rfl

end

/-! ### Status -/

theorem State.running_iff (s : State) : s.running = true ↔ s.halted = false ∧ s.fault = none := by
  simp [State.running, Option.isNone_iff_eq_none]

theorem State.status_of_running (s : State) (h : s.running = true) : s.status = .running := by
  obtain ⟨hh, hf⟩ := (State.running_iff s).mp h
  simp [State.status, hh, hf]

theorem State.running_of_status (s : State) (h : s.status = .running) : s.running = true := by
  unfold State.status at h
  split at h
  · cases h
  · split at h
    · simp_all [State.running]
    · cases h

end Sys2Proof.Machine
end

