-- ==== Sys2Proof/Laws/Memory.lean ====
section
/-! SUPPORT. The memory array: read after write, the canonical form that every write keeps, and that the form makes
memories with equal bytes equal data. -/

namespace Sys2Proof.Machine

theorem Memory.wfFrom_cons (lo k : Nat) (w : Byte) (m : Memory) :
    Memory.wfFrom lo ((k, w) :: m) = true ↔ lo ≤ k ∧ k ≤ 255 ∧ w ≠ 0#8 ∧ Memory.wfFrom (k + 1) m = true := by
  simp [Memory.wfFrom, and_assoc]

theorem Memory.wfFrom_mono {lo lo' : Nat} {m : Memory} (h : Memory.wfFrom lo m = true) (hlo : lo' ≤ lo) :
    Memory.wfFrom lo' m = true := by
  cases m with
  | nil => rfl
  | cons c m =>
    rw [Memory.wfFrom_cons] at h ⊢
    exact ⟨by omega, h.2⟩

/-- Below its first address a canonical memory lists nothing. -/
theorem Memory.read_below {lo : Nat} {m : Memory} (h : Memory.wfFrom lo m = true) {n : Nat} (hn : n < lo) :
    Memory.read m n = 0#8 := by
  induction m generalizing lo with
  | nil => rfl
  | cons c m ih =>
    obtain ⟨k, w⟩ := c
    rw [Memory.wfFrom_cons] at h
    have hk : k ≠ n := by omega
    simpa [Memory.read, hk] using ih h.2.2.2 (by omega)

/-- No cell past 255 is listed. -/
theorem Memory.read_above {lo : Nat} {m : Memory} (h : Memory.wfFrom lo m = true) {n : Nat} (hn : 255 < n) :
    Memory.read m n = 0#8 := by
  induction m generalizing lo with
  | nil => rfl
  | cons c m ih =>
    obtain ⟨k, w⟩ := c
    rw [Memory.wfFrom_cons] at h
    have hk : k ≠ n := by omega
    simpa [Memory.read, hk] using ih h.2.2.2

theorem Memory.read_write_from {lo : Nat} {m : Memory} (h : Memory.wfFrom lo m = true) (n : Nat) (v : Byte) (k : Nat) :
    Memory.read (Memory.write m n v) k = if k = n then v else Memory.read m k := by
  induction m generalizing lo with
  | nil =>
    by_cases hv : v = 0#8 <;> by_cases hk : k = n <;> simp [Memory.write, Memory.read, hv, hk, eq_comm]
    intro h; exact absurd h.symm hk
  | cons c m ih =>
    obtain ⟨j, w⟩ := c
    rw [Memory.wfFrom_cons] at h
    obtain ⟨-, -, -, hm⟩ := h
    rcases Nat.lt_trichotomy n j with hlt | rfl | hgt
    · have below : Memory.read m n = 0#8 := Memory.read_below hm (by omega)
      have hj : j ≠ n := by omega
      by_cases hv : v = 0#8 <;> by_cases hk : k = n <;> simp [Memory.write, Memory.read, hlt, hv, hk, hj, below, eq_comm]
      intro h; exact absurd h.symm hk
    · have below : Memory.read m n = 0#8 := Memory.read_below hm (by omega)
      by_cases hv : v = 0#8 <;> by_cases hk : k = n <;> simp [Memory.write, Memory.read, hv, hk, below, eq_comm]
      · intro h; exact absurd h.symm hk
      · have : n ≠ k := fun h => hk h.symm
        simp [this]
    · have h1 : ¬ n < j := by omega
      have h2 : n ≠ j := by omega
      by_cases hk : k = j
      · subst hk
        have : k ≠ n := by omega
        simp [Memory.write, Memory.read, h1, h2, this]
      · have hjk : j ≠ k := fun h => hk h.symm
        simp [Memory.write, Memory.read, h1, h2, hjk, ih hm]

/-- A read after a write: the value written there, the old byte elsewhere (20_memory.md R62). -/
theorem Memory.read_write {m : Memory} (h : m.wf = true) (n : Nat) (v : Byte) (k : Nat) :
    (m.write n v).read k = if k = n then v else m.read k :=
  Memory.read_write_from h n v k

theorem Memory.write_wfFrom {lo : Nat} {m : Memory} (h : Memory.wfFrom lo m = true) {n : Nat} (v : Byte)
    (hlo : lo ≤ n) (hn : n ≤ 255) : Memory.wfFrom lo (Memory.write m n v) = true := by
  induction m generalizing lo with
  | nil => by_cases hv : v = 0#8 <;> simp [Memory.write, Memory.wfFrom, hv, hlo, hn]
  | cons c m ih =>
    obtain ⟨j, w⟩ := c
    have h0 := h
    rw [Memory.wfFrom_cons] at h
    obtain ⟨hj, hj255, hw, hm⟩ := h
    unfold Memory.write
    split
    · split
      · exact h0
      · rw [Memory.wfFrom_cons, Memory.wfFrom_cons]
        exact ⟨hlo, hn, ‹_›, by omega, hj255, hw, hm⟩
    · split
      · split
        · exact Memory.wfFrom_mono hm (by omega)
        · subst_vars
          exact (Memory.wfFrom_cons ..).mpr ⟨hlo, hn, ‹_›, hm⟩
      · exact (Memory.wfFrom_cons ..).mpr ⟨hj, hj255, hw, ih hm (by omega)⟩

/-- A write to a cell keeps the canonical form. -/
theorem Memory.write_wf {m : Memory} (h : m.wf = true) {n : Nat} (v : Byte) (hn : n ≤ 255) :
    (m.write n v).wf = true :=
  Memory.write_wfFrom h v (Nat.zero_le n) hn

/-- A contiguous write inside 0..255 keeps the canonical form. -/
theorem Memory.writeBytes_wf {m : Memory} (h : m.wf = true) {base : Nat} (p : List Byte)
    (hp : base + p.length ≤ 256) : (m.writeBytes base p).wf = true := by
  induction p generalizing m base with
  | nil => exact h
  | cons v vs ih =>
    simp only [List.length_cons] at hp
    exact ih (Memory.write_wf h v (by omega)) (by omega)

/-- A read after a contiguous write. -/
theorem Memory.read_writeBytes {m : Memory} (h : m.wf = true) {base : Nat} (p : List Byte)
    (hp : base + p.length ≤ 256) (n : Nat) :
    (m.writeBytes base p).read n =
      if base ≤ n ∧ n < base + p.length then p.getD (n - base) 0#8 else m.read n := by
  induction p generalizing m base with
  | nil =>
    simp [Memory.writeBytes]
  | cons v vs ih =>
    simp only [List.length_cons] at hp ⊢
    rw [Memory.writeBytes, ih (Memory.write_wf h v (by omega)) (by omega), Memory.read_write h]
    by_cases h1 : n = base
    · subst h1
      have hin : n ≤ n ∧ n < n + (vs.length + 1) := by omega
      simp [hin]
    · by_cases h2 : base + 1 ≤ n ∧ n < base + 1 + vs.length
      · have h3 : base ≤ n ∧ n < base + (vs.length + 1) := by omega
        have h4 : n - base = (n - (base + 1)) + 1 := by omega
        simp [h2, h3, h4]
      · have h3 : ¬ (base ≤ n ∧ n < base + (vs.length + 1)) := by omega
        rw [if_neg h2, if_neg h1, if_neg h3]

theorem Memory.ext_from {lo : Nat} {m m' : Memory} (h : Memory.wfFrom lo m = true) (h' : Memory.wfFrom lo m' = true)
    (heq : ∀ n, Memory.read m n = Memory.read m' n) : m = m' := by
  induction m generalizing lo m' with
  | nil =>
    cases m' with
    | nil => rfl
    | cons c m' =>
      obtain ⟨k, w⟩ := c
      rw [Memory.wfFrom_cons] at h'
      have := heq k
      simp only [Memory.read, if_true] at this
      exact absurd this.symm h'.2.2.1
  | cons c m ih =>
    obtain ⟨k, w⟩ := c
    rw [Memory.wfFrom_cons] at h
    cases m' with
    | nil =>
      have := heq k
      simp only [Memory.read, if_true] at this
      exact absurd this h.2.2.1
    | cons c' m' =>
      obtain ⟨k', w'⟩ := c'
      rw [Memory.wfFrom_cons] at h'
      have hk : k = k' := by
        rcases Nat.lt_trichotomy k k' with hlt | heq' | hgt
        · have h1 := heq k
          have h2 : k' ≠ k := by omega
          simp only [Memory.read, if_true, h2, if_false, Memory.read_below h'.2.2.2 (show k < k' + 1 by omega)] at h1
          exact absurd h1 h.2.2.1
        · exact heq'
        · have h1 := heq k'
          have h2 : k ≠ k' := by omega
          simp only [Memory.read, if_true, h2, if_false, Memory.read_below h.2.2.2 (show k' < k + 1 by omega)] at h1
          exact absurd h1.symm h'.2.2.1
      subst hk
      have hw : w = w' := by simpa [Memory.read] using heq k
      subst hw
      have hm : m = m' := by
        apply ih h.2.2.2 h'.2.2.2
        intro n
        by_cases hn : k = n
        · subst hn
          rw [Memory.read_below h.2.2.2 (by omega), Memory.read_below h'.2.2.2 (by omega)]
        · simpa [Memory.read, hn] using heq n
      rw [hm]

/-- In canonical form, memories that read alike are the same data. -/
theorem Memory.ext {m m' : Memory} (h : m.wf = true) (h' : m'.wf = true) (heq : ∀ n, m.read n = m'.read n) : m = m' :=
  Memory.ext_from h h' heq

theorem reset_memory_wf : State.reset.mem.wf = true := rfl

end Sys2Proof.Machine
end

