-- ==== Sys2Proof/Laws/Ops.lean ====
section
/-! SUPPORT. One lemma for each case of each shared operation: what it answers, and when. -/

namespace Sys2Proof.Machine

@[simp] theorem except_ok_bind {ε α β : Type} (a : α) (f : α → Except ε β) : (Except.ok a >>= f) = f a := rfl
@[simp] theorem except_error_bind {ε α β : Type} (e : ε) (f : α → Except ε β) :
    ((Except.error e : Except ε α) >>= f) = .error e := rfl
@[simp] theorem except_pure {ε α : Type} (a : α) : (pure a : Except ε α) = .ok a := rfl

/-! ### Register operands (40_step.md R104) -/

@[simp] theorem regByte_toNat (r : Fin 8) : (regByte r).toNat = r.val := by
  have := r.isLt
  simp [regByte]
  omega

@[simp] theorem regOperand_regByte (o : Op) (s : State) (r : Fin 8) : regOperand o s (regByte r) = .ok r := by
  have := r.isLt
  simp [regOperand]
  omega

theorem regOperand_of_le (o : Op) (s : State) {r : Byte} (h : r.toNat ≤ 7) :
    regOperand o s r = .ok ⟨r.toNat, by omega⟩ := by
  simp [regOperand, h]

theorem regOperand_of_gt (o : Op) (s : State) {r : Byte} (h : 7 < r.toNat) :
    regOperand o s r = .error (.register s.pc o.opcode r) := by
  have : ¬ r.toNat ≤ 7 := by omega
  simp [regOperand, this]

/-- A register operand is either a register or the fault that names its byte. -/
theorem regOperand_cases (o : Op) (s : State) (r : Byte) :
    (r.toNat ≤ 7 ∧ ∃ i : Fin 8, r = regByte i ∧ regOperand o s r = .ok i) ∨
    (7 < r.toNat ∧ regOperand o s r = .error (.register s.pc o.opcode r)) := by
  by_cases h : r.toNat ≤ 7
  · refine .inl ⟨h, ⟨r.toNat, by omega⟩, ?_, regOperand_of_le o s h⟩
    simp [regByte]
  · exact .inr ⟨by omega, regOperand_of_gt o s (by omega)⟩

/-! ### The memory port (20_memory.md R51) -/

theorem memRead_in_range (s : State) (op : Option Byte) {n : Nat} (h : n ≤ 255) :
    memRead s op (n : Int) = .ok (s.byteAt n) := by
  have : (0 : Int) ≤ n ∧ (n : Int) ≤ 255 := by omega
  simp [memRead, this]

/-- An address held in a register is always in range, so the port's own check never fires there (20_memory.md R69). -/
@[simp] theorem memRead_byte (s : State) (op : Option Byte) (b : Byte) :
    memRead s op (b.toNat : Int) = .ok (s.byteAt b.toNat) :=
  memRead_in_range s op (by have := b.isLt; omega)

theorem memRead_out_of_range (s : State) (op : Option Byte) {addr : Int} (h : addr < 0 ∨ 255 < addr) :
    memRead s op addr = .error (.memory s.pc op addr) := by
  have : ¬ (0 ≤ addr ∧ addr ≤ 255) := by omega
  simp [memRead, this]

@[simp] theorem memWrite_byte (s : State) (op : Option Byte) (b v : Byte) :
    memWrite s op (b.toNat : Int) v = .ok { s with mem := s.mem.write b.toNat v } := by
  have : (0 : Int) ≤ b.toNat ∧ (b.toNat : Int) ≤ 255 := by have := b.isLt; omega
  simp [memWrite, this]

theorem memWrite_out_of_range (s : State) (op : Option Byte) {addr : Int} (v : Byte) (h : addr < 0 ∨ 255 < addr) :
    memWrite s op addr v = .error (.memory s.pc op addr) := by
  have : ¬ (0 ≤ addr ∧ addr ≤ 255) := by omega
  simp [memWrite, this]

theorem byteAt_write {s : State} (h : s.mem.wf = true) (n k : Nat) (v : Byte) :
    ({ s with mem := s.mem.write n v } : State).byteAt k = if k = n then v else s.byteAt k :=
  Memory.read_write h n v k

/-! ### The stack pointer's bounds (43_stack.md R178) -/

theorem decSp_of_pos (o : Op) (s : State) (h : 0 < s.sp.toNat) : decSp o s = .ok (s.setSp (s.sp - 1#8)) := by
  rw [decSp, if_pos (by omega)]

theorem decSp_of_zero (o : Op) (s : State) (h : s.sp.toNat = 0) :
    decSp o s = .error (.stack s.pc o.opcode (-1)) := by
  rw [decSp, if_neg (by omega), h]
  rfl

theorem incSp_of_lt (o : Op) (s : State) (h : s.sp.toNat < 255) : incSp o s = .ok (s.setSp (s.sp + 1#8)) := by
  have h' : (s.sp.toNat : Int) + 1 ≤ 255 := by omega
  exact if_pos h'

theorem incSp_of_top (o : Op) (s : State) (h : s.sp.toNat = 255) :
    incSp o s = .error (.stack s.pc o.opcode 256) := by
  have h' : ¬ (s.sp.toNat : Int) + 1 ≤ 255 := by omega
  have h256 : (s.sp.toNat : Int) + 1 = 256 := by omega
  exact (if_neg h').trans (by rw [h256])

theorem decSp_cases (o : Op) (s : State) :
    (0 < s.sp.toNat ∧ decSp o s = .ok (s.setSp (s.sp - 1#8))) ∨
    (s.sp.toNat = 0 ∧ decSp o s = .error (.stack s.pc o.opcode (-1))) := by
  rcases Nat.eq_zero_or_pos s.sp.toNat with h | h
  · exact .inr ⟨h, decSp_of_zero o s h⟩
  · exact .inl ⟨h, decSp_of_pos o s h⟩

theorem incSp_cases (o : Op) (s : State) :
    (s.sp.toNat < 255 ∧ incSp o s = .ok (s.setSp (s.sp + 1#8))) ∨
    (s.sp.toNat = 255 ∧ incSp o s = .error (.stack s.pc o.opcode 256)) := by
  have := s.sp.isLt
  by_cases h : s.sp.toNat < 255
  · exact .inl ⟨h, incSp_of_lt o s h⟩
  · exact .inr ⟨by omega, incSp_of_top o s (by omega)⟩

/-! ### The end of an instruction (40_step.md R106 to R108) -/

@[simp] theorem finish_error (o : Op) (s : State) (e : FaultRecord) : finish o s (.error e) = .next (s.fail e) := rfl

@[simp] theorem finish_ok (o : Op) (s t : State) (n : NextPc) :
    finish o s (.ok (t, n)) = .next (t.setPc (nextPc o s.pc n)) := rfl

/-- Whatever its execute part does, an instruction ends in a next state: the fault taken on the state before it, or the
working copy with PC set. -/
theorem finish_cases (o : Op) (s : State) (r : ExecPart) :
    (∃ e, r = .error e ∧ finish o s r = .next (s.fail e)) ∨
    (∃ t n, r = .ok (t, n) ∧ finish o s r = .next (t.setPc (nextPc o s.pc n))) := by
  cases r with
  | error e => exact .inl ⟨e, rfl, rfl⟩
  | ok p => exact .inr ⟨p.1, p.2, rfl, rfl⟩

@[simp] theorem nextPc_seq (o : Op) (pc0 : PcWord) : nextPc o pc0 .seq = seqPc o pc0 := rfl

@[simp] theorem nextPc_jump (o : Op) (pc0 : PcWord) (t : Byte) : (nextPc o pc0 (.jump t)).toNat = t.toNat := by
  have := t.isLt
  simp [nextPc]
  omega

theorem Op.width_le (o : Op) : 1 ≤ o.width ∧ o.width ≤ 3 := by
  cases o <;> decide

/-- In sequence PC moves by the width, exactly, from every place where an instruction can be fetched (40_step.md R106). -/
theorem seqPc_toNat (o : Op) {pc0 : PcWord} (h : pc0.toNat ≤ 253) : (seqPc o pc0).toNat = pc0.toNat + o.width := by
  have := Op.width_le o
  simp [seqPc]
  omega

/-! ### The ALU datapath (42_alu.md R140) -/

@[simp] theorem aluPart_regs (o : Op) (f : Byte → Byte → Byte) (ra rb : Fin 8) (s : State) :
    aluPart o f (regByte ra) (regByte rb) s = .ok (s.setReg ra (f (s.reg ra) (s.reg rb)), .seq) := by
  simp [aluPart]

/-- Everything a two-operand ALU instruction's execute part can do. -/
theorem aluPart_cases (o : Op) (f : Byte → Byte → Byte) (a b : Byte) (s : State) :
    (∃ ra rb : Fin 8, a = regByte ra ∧ b = regByte rb ∧
      aluPart o f a b s = .ok (s.setReg ra (f (s.reg ra) (s.reg rb)), .seq)) ∨
    (7 < a.toNat ∧ aluPart o f a b s = .error (.register s.pc o.opcode a)) ∨
    (a.toNat ≤ 7 ∧ 7 < b.toNat ∧ aluPart o f a b s = .error (.register s.pc o.opcode b)) := by
  rcases regOperand_cases o s a with ⟨ha, ra, rfl, hra⟩ | ⟨ha, hra⟩
  · rcases regOperand_cases o s b with ⟨-, rb, rfl, -⟩ | ⟨hb, hrb⟩
    · exact .inl ⟨ra, rb, rfl, rfl, by simp⟩
    · exact .inr (.inr ⟨ha, hb, by simp [aluPart, hrb]⟩)
  · exact .inr (.inl ⟨ha, by simp [aluPart, hra]⟩)

end Sys2Proof.Machine
end

