-- ==== Sys2Proof/Laws/Step.lean ====
section
/-! SUPPORT. The fetch and the step: when each answers what, and everything a step can do. -/

namespace Sys2Proof.Machine

/-! ### Fetch (40_step.md R102) -/

theorem fetchCheck_of_le {pc0 : PcWord} (h : pc0.toNat ≤ 253) : fetchCheck pc0 = .ok () := by
  have h0 : ¬ 255 < pc0.toNat := by omega
  have h1 : ¬ 255 < pc0.toNat + 1 := by omega
  have h2 : ¬ 255 < pc0.toNat + 2 := by omega
  simp [fetchCheck, List.find?, h0, h1, h2]

theorem fetchCheck_of_gt {pc0 : PcWord} (h : 253 < pc0.toNat) :
    fetchCheck pc0 = .error (.fetch pc0 (max 256 pc0.toNat)) := by
  by_cases h0 : 255 < pc0.toNat
  · have : max 256 pc0.toNat = pc0.toNat := by omega
    simp [fetchCheck, List.find?, h0, this]
  · by_cases h1 : 255 < pc0.toNat + 1
    · have : max 256 pc0.toNat = pc0.toNat + 1 := by omega
      simp [fetchCheck, List.find?, h0, h1, this]
    · have h2 : 255 < pc0.toNat + 2 := by omega
      have : max 256 pc0.toNat = pc0.toNat + 2 := by omega
      simp [fetchCheck, List.find?, h0, h1, h2, this]

/-- Up to 253 the fetch reads the three bytes at PC. -/
theorem fetch_of_le {s : State} (h : s.pc.toNat ≤ 253) :
    fetch s = .ok ⟨s.byteAt s.pc.toNat, s.byteAt (s.pc.toNat + 1), s.byteAt (s.pc.toNat + 2)⟩ := by
  rw [fetch, fetchCheck_of_le h, memRead_in_range s none (by omega), memRead_in_range s none (by omega),
    memRead_in_range s none (by omega)]
  rfl

/-- Past 253 the fetch faults, at the lowest out-of-range address. -/
theorem fetch_of_gt {s : State} (h : 253 < s.pc.toNat) :
    fetch s = .error (.fetch s.pc (max 256 s.pc.toNat)) := by
  rw [fetch, fetchCheck_of_gt h]
  rfl

/-! ### The step (40_step.md R108) -/

theorem stepIn_running (ext : Bool) {s : State} (h : s.running = true) : stepIn ext s = cycle ext s := by
  simp [stepIn, State.status_of_running s h]

theorem cycle_of_le (ext : Bool) {s : State} (h : s.pc.toNat ≤ 253) :
    cycle ext s =
      match decode ext (s.byteAt s.pc.toNat) (s.byteAt (s.pc.toNat + 1)) (s.byteAt (s.pc.toNat + 2)) with
      | .error _ => .next (s.fail (.illegal s.pc (s.byteAt s.pc.toNat)))
      | .ok i => exec i s := by
  cases hd : decode ext (s.byteAt s.pc.toNat) (s.byteAt (s.pc.toNat + 1)) (s.byteAt (s.pc.toNat + 2)) <;>
    simp only [cycle, fetch_of_le h, hd]

theorem cycle_of_gt (ext : Bool) {s : State} (h : 253 < s.pc.toNat) :
    cycle ext s = .next (s.fail (.fetch s.pc (max 256 s.pc.toNat))) := by
  rw [cycle, fetch_of_gt h]

/-- Everything a step that answers a next state can be: Running before it, and then a fetch fault, an illegal
instruction, or the decoded instruction. -/
theorem stepIn_cases {ext : Bool} {s t : State} (h : stepIn ext s = .next t) :
    s.running = true ∧
    ((253 < s.pc.toNat ∧ t = s.fail (.fetch s.pc (max 256 s.pc.toNat))) ∨
     (s.pc.toNat ≤ 253 ∧
      (∃ e, decode ext (s.byteAt s.pc.toNat) (s.byteAt (s.pc.toNat + 1)) (s.byteAt (s.pc.toNat + 2)) = .error e) ∧
      t = s.fail (.illegal s.pc (s.byteAt s.pc.toNat))) ∨
     (s.pc.toNat ≤ 253 ∧ ∃ i,
      decode ext (s.byteAt s.pc.toNat) (s.byteAt (s.pc.toNat + 1)) (s.byteAt (s.pc.toNat + 2)) = .ok i ∧
      exec i s = .next t)) := by
  have hrun : s.running = true := by
    unfold stepIn at h
    split at h
    · cases h
    · cases h
    · exact State.running_of_status s ‹_›
  rw [stepIn_running ext hrun] at h
  refine ⟨hrun, ?_⟩
  by_cases hpc : s.pc.toNat ≤ 253
  · rw [cycle_of_le ext hpc] at h
    split at h
    · rename_i e he
      cases h
      exact .inr (.inl ⟨hpc, ⟨e, he⟩, rfl⟩)
    · rename_i i hi
      exact .inr (.inr ⟨hpc, i, hi, h⟩)
  · rw [cycle_of_gt ext (by omega)] at h
    cases h
    exact .inl ⟨by omega, rfl⟩

end Sys2Proof.Machine
end

