-- ==== Sys2Proof/Laws/Exec.lean ====
section
/-! SUPPORT. Each meaning once, on register operands that name registers: the state it answers, over the shared
operations. What an operand over 7 does is `regOperand_cases`; together they are all an instruction can do. -/

namespace Sys2Proof.Machine

section
variable (s : State) (ra rb : Fin 8) (b : Byte)

theorem execHlt_eq : execHlt s = .next (s.halt.setPc (seqPc .hlt s.pc)) := rfl

theorem execLdi_regs : execLdi (regByte ra) b s = .next ((s.setReg ra b).setPc (seqPc .ldi s.pc)) := by
  simp [execLdi]

theorem execPrn_regs : execPrn (regByte ra) s = .next ((s.emit (s.reg ra)).setPc (seqPc .prn s.pc)) := by
  simp [execPrn]

theorem execNot_regs :
    execNot (regByte ra) s = .next ((s.setReg ra (aluNot (s.reg ra))).setPc (seqPc .not s.pc)) := by
  simp [execNot]

theorem execAdd_regs : execAdd (regByte ra) (regByte rb) s =
    .next ((s.setReg ra (aluAdd (s.reg ra) (s.reg rb))).setPc (seqPc .add s.pc)) := by
  simp [execAdd]

theorem execSub_regs : execSub (regByte ra) (regByte rb) s =
    .next ((s.setReg ra (aluSub (s.reg ra) (s.reg rb))).setPc (seqPc .sub s.pc)) := by
  simp [execSub]

theorem execMul_regs : execMul (regByte ra) (regByte rb) s =
    .next ((s.setReg ra (aluMul (s.reg ra) (s.reg rb))).setPc (seqPc .mul s.pc)) := by
  simp [execMul]

theorem execAnd_regs : execAnd (regByte ra) (regByte rb) s =
    .next ((s.setReg ra (aluAnd (s.reg ra) (s.reg rb))).setPc (seqPc .and s.pc)) := by
  simp [execAnd]

theorem execOr_regs : execOr (regByte ra) (regByte rb) s =
    .next ((s.setReg ra (aluOr (s.reg ra) (s.reg rb))).setPc (seqPc .or s.pc)) := by
  simp [execOr]

theorem execXor_regs : execXor (regByte ra) (regByte rb) s =
    .next ((s.setReg ra (aluXor (s.reg ra) (s.reg rb))).setPc (seqPc .xor s.pc)) := by
  simp [execXor]

theorem execShl_regs : execShl (regByte ra) (regByte rb) s =
    .next ((s.setReg ra (aluShl (s.reg ra) (s.reg rb))).setPc (seqPc .shl s.pc)) := by
  simp [execShl]

theorem execShr_regs : execShr (regByte ra) (regByte rb) s =
    .next ((s.setReg ra (aluShr (s.reg ra) (s.reg rb))).setPc (seqPc .shr s.pc)) := by
  simp [execShr]

theorem execCmp_regs : execCmp (regByte ra) (regByte rb) s =
    .next ((s.setFl (compareFlags (s.reg ra) (s.reg rb))).setPc (seqPc .cmp s.pc)) := by
  simp [execCmp]

theorem execJmp_regs : execJmp (regByte ra) s = .next (s.setPc ((s.reg ra).setWidth 9)) := by
  simp [execJmp, nextPc]

theorem execJeq_regs : execJeq (regByte ra) s =
    .next (s.setPc (if flagE s.fl then (s.reg ra).setWidth 9 else seqPc .jeq s.pc)) := by
  cases h : flagE s.fl <;> simp [execJeq, nextPc, h]

theorem execJne_regs : execJne (regByte ra) s =
    .next (s.setPc (if flagE s.fl then seqPc .jne s.pc else (s.reg ra).setWidth 9)) := by
  cases h : flagE s.fl <;> simp [execJne, nextPc, h]

theorem execPush_regs (h : 0 < s.sp.toNat) : execPush (regByte ra) s =
    .next (({ s.setSp (s.sp - 1#8) with
      mem := s.mem.write (s.sp - 1#8).toNat ((s.setSp (s.sp - 1#8)).reg ra) } : State).setPc (seqPc .push s.pc)) := by
  simp only [execPush, regOperand_regByte, except_ok_bind, decSp_of_pos .push s h, memWrite_byte, State.sp_setSp,
    State.setSp_mem, except_pure, finish_ok, nextPc_seq]

theorem execPush_zero (h : s.sp.toNat = 0) :
    execPush (regByte ra) s = .next (s.fail (.stack s.pc Op.push.opcode (-1))) := by
  simp only [execPush, regOperand_regByte, except_ok_bind, decSp_of_zero .push s h, except_error_bind, finish_error]

theorem execCall_regs (h : 0 < s.sp.toNat) : execCall (regByte ra) s =
    .next (({ s.setSp (s.sp - 1#8) with
      mem := s.mem.write (s.sp - 1#8).toNat (returnAddress s.pc) } : State).setPc
        (((s.setSp (s.sp - 1#8)).reg ra).setWidth 9)) := by
  simp only [execCall, regOperand_regByte, except_ok_bind, decSp_of_pos .call s h, memWrite_byte, State.sp_setSp,
    State.setSp_mem, except_pure, finish_ok, nextPc]
  rfl

theorem execCall_zero (h : s.sp.toNat = 0) :
    execCall (regByte ra) s = .next (s.fail (.stack s.pc Op.call.opcode (-1))) := by
  simp only [execCall, regOperand_regByte, except_ok_bind, decSp_of_zero .call s h, except_error_bind, finish_error]

/-- POP on the value it loads: SP as it stands after the register is written decides. -/
theorem execPop_regs (h : (s.setReg ra (s.byteAt s.sp.toNat)).sp.toNat < 255) : execPop (regByte ra) s =
    .next (((s.setReg ra (s.byteAt s.sp.toNat)).setSp ((s.setReg ra (s.byteAt s.sp.toNat)).sp + 1#8)).setPc
      (seqPc .pop s.pc)) := by
  simp only [execPop, regOperand_regByte, except_ok_bind, memRead_byte, incSp_of_lt .pop _ h, except_pure, finish_ok,
    nextPc_seq]

theorem execPop_top (h : (s.setReg ra (s.byteAt s.sp.toNat)).sp.toNat = 255) :
    execPop (regByte ra) s = .next (s.fail (.stack s.pc Op.pop.opcode 256)) := by
  simp only [execPop, regOperand_regByte, except_ok_bind, memRead_byte, incSp_of_top .pop _ h, except_error_bind,
    finish_error, State.setReg_pc]

theorem execRet_eq (h : s.sp.toNat < 255) : execRet s =
    .next ((s.setSp (s.sp + 1#8)).setPc ((s.byteAt s.sp.toNat).setWidth 9)) := by
  simp only [execRet, memRead_byte, except_ok_bind, incSp_of_lt .ret s h, except_pure, finish_ok, nextPc]

theorem execRet_top (h : s.sp.toNat = 255) :
    execRet s = .next (s.fail (.stack s.pc Op.ret.opcode 256)) := by
  simp only [execRet, memRead_byte, except_ok_bind, incSp_of_top .ret s h, except_error_bind, finish_error]

/-- The return address is exact wherever CALL can be fetched (43_stack.md R175). -/
theorem returnAddress_toNat {pc0 : PcWord} (h : pc0.toNat ≤ 253) : (returnAddress pc0).toNat = pc0.toNat + 2 := by
  simp [returnAddress]
  omega

end

/-! ### Every meaning ends in a next state -/

/-- An instruction whose part ends in `finish` answers a next state. -/
theorem finish_next (o : Op) (s : State) (r : ExecPart) : ∃ t, finish o s r = .next t := by
  rcases finish_cases o s r with ⟨e, -, h⟩ | ⟨t, n, -, h⟩
  · exact ⟨_, h⟩
  · exact ⟨_, h⟩

end Sys2Proof.Machine
end

