-- ==== Sys2Proof/Laws/PerInstr.lean ====
section
/-! SUPPORT. Laws of the instructions as syntax, one lemma per constructor, for the host's case split. -/

namespace Sys2Proof.Laws.EncodedWidth

/-- An instruction's encoding is as long as its row's width, which is the `AA` field of its opcode plus one; the `C`
field says whether the row sets PC (30_encoding.md R86, R88). -/
def Statement (i : Instr) : Prop :=
  (encode i).length = i.op.width ∧ i.op.width = opcodeOperandCount i.op.opcode + 1 ∧
    opcodeSetsPc i.op.opcode = (i.op.setsPc != .no)

/-- Each row's width and "sets PC" agree with the fields of its opcode byte (30_encoding.md R88). -/
theorem row_fields (o : Op) :
    o.width = opcodeOperandCount o.opcode + 1 ∧ opcodeSetsPc o.opcode = (o.setsPc != .no) := by
  cases o <;> decide

theorem hlt : Statement .hlt := ⟨rfl, row_fields _⟩
theorem ret : Statement .ret := ⟨rfl, row_fields _⟩
theorem push (a : Byte) : Statement (.push a) := ⟨rfl, row_fields _⟩
theorem pop (a : Byte) : Statement (.pop a) := ⟨rfl, row_fields _⟩
theorem prn (a : Byte) : Statement (.prn a) := ⟨rfl, row_fields _⟩
theorem call (a : Byte) : Statement (.call a) := ⟨rfl, row_fields _⟩
theorem jmp (a : Byte) : Statement (.jmp a) := ⟨rfl, row_fields _⟩
theorem jeq (a : Byte) : Statement (.jeq a) := ⟨rfl, row_fields _⟩
theorem jne (a : Byte) : Statement (.jne a) := ⟨rfl, row_fields _⟩
theorem not (a : Byte) : Statement (.not a) := ⟨rfl, row_fields _⟩
theorem ldi (a b : Byte) : Statement (.ldi a b) := ⟨rfl, row_fields _⟩
theorem add (a b : Byte) : Statement (.add a b) := ⟨rfl, row_fields _⟩
theorem sub (a b : Byte) : Statement (.sub a b) := ⟨rfl, row_fields _⟩
theorem mul (a b : Byte) : Statement (.mul a b) := ⟨rfl, row_fields _⟩
theorem cmp (a b : Byte) : Statement (.cmp a b) := ⟨rfl, row_fields _⟩
theorem and (a b : Byte) : Statement (.and a b) := ⟨rfl, row_fields _⟩
theorem or (a b : Byte) : Statement (.or a b) := ⟨rfl, row_fields _⟩
theorem xor (a b : Byte) : Statement (.xor a b) := ⟨rfl, row_fields _⟩
theorem shl (a b : Byte) : Statement (.shl a b) := ⟨rfl, row_fields _⟩
theorem shr (a b : Byte) : Statement (.shr a b) := ⟨rfl, row_fields _⟩

end Sys2Proof.Laws.EncodedWidth
end

