-- ==== Sys2Proof/Laws/Strict.lean ====
section
/-! SUPPORT. The strict mode's step: the instruction at PC is the one a step runs, and everything a strict step can be. -/

namespace Sys2Proof.Machine

theorem State.instrAt_of_le {s : State} (h : s.pc.toNat ≤ 253) :
    s.instrAt =
      match decode Config.aluExt (s.byteAt s.pc.toNat) (s.byteAt (s.pc.toNat + 1)) (s.byteAt (s.pc.toNat + 2)) with
      | .error _ => none
      | .ok i => some i := by
  cases hd : decode Config.aluExt (s.byteAt s.pc.toNat) (s.byteAt (s.pc.toNat + 1)) (s.byteAt (s.pc.toNat + 2)) <;>
    simp only [State.instrAt, fetch_of_le h, hd]

/-- The instruction at PC is the one its three bytes decode to. -/
theorem State.instrAt_iff (s : State) (i : Instr) : s.instrAt = some i ↔ DecodesAtPc s i := by
  by_cases h : s.pc.toNat ≤ 253
  · rw [State.instrAt_of_le h, DecodesAtPc]
    cases decode Config.aluExt (s.byteAt s.pc.toNat) (s.byteAt (s.pc.toNat + 1)) (s.byteAt (s.pc.toNat + 2)) <;> simp [h]
  · simp [State.instrAt, fetch_of_gt (Nat.lt_of_not_le h), DecodesAtPc, h]

/-- A step that takes no fault runs the instruction at PC. -/
theorem step_commits {s t : State} (h : step s = .next t) (hf : t.fault = none) :
    ∃ i, s.instrAt = some i ∧ exec i s = .next t := by
  obtain ⟨-, ⟨-, rfl⟩ | ⟨-, -, rfl⟩ | ⟨hpc, i, hi, he⟩⟩ := stepIn_cases h
  · simp at hf
  · simp at hf
  · exact ⟨i, by rw [State.instrAt_of_le hpc, hi], he⟩

/-- Everything a strict step can be: the stop of `step`, a fault taken, an unwritten item read, or the committed step. -/
theorem strictStep_cases (k : StrictState) :
    (∃ f, step k.state = .fault f ∧ strictStep k = .fault (.notRunning f)) ∨
    (∃ r, step k.state = .refused r ∧ strictStep k = .refused r) ∨
    (∃ t, step k.state = .next t ∧ t.fault.isSome = true ∧ strictStep k = .next { k with state := t }) ∨
    (∃ t i, step k.state = .next t ∧ t.fault = none ∧ k.state.instrAt = some i ∧ exec i k.state = .next t ∧
      ((∃ x, (readItems i k.state).find? k.unwritten.contains = some x ∧ strictStep k = .fault (.unwrittenRead x)) ∨
       ((readItems i k.state).find? k.unwritten.contains = none ∧
        strictStep k =
          .next { state := t, unwritten := k.unwritten.filter (fun x => !(writeItems i).contains x) }))) := by
  cases h : step k.state with
  | fault f => exact .inl ⟨f, rfl, by rw [strictStep, h]⟩
  | refused r => exact .inr (.inl ⟨r, rfl, by rw [strictStep, h]⟩)
  | next t =>
    cases hf : t.fault with
    | some r => exact .inr (.inr (.inl ⟨t, rfl, by rw [hf]; rfl, by rw [strictStep, h]; simp [hf]⟩))
    | none =>
      obtain ⟨i, hi, he⟩ := step_commits h hf
      refine .inr (.inr (.inr ⟨t, i, rfl, hf, hi, he, ?_⟩))
      cases hx : (readItems i k.state).find? k.unwritten.contains with
      | some x => exact .inl ⟨x, rfl, by simp only [strictStep, h, hf, hi, hx, Option.isSome_none, Bool.false_eq_true, if_false]⟩
      | none => exact .inr ⟨rfl, by simp only [strictStep, h, hf, hi, hx, Option.isSome_none, Bool.false_eq_true, if_false]⟩

end Sys2Proof.Machine
end

