-- ==== Sys2Proof/Tests/Slice0.lean ====
section
/-! SUPPORT. The model's own tests: each expected value is from 95_test_vectors.md (its vector is named), or worked out by
hand from the rule named. After them, for every statement with hypotheses, concrete inputs that meet them. -/

namespace Sys2Proof.Tests

open Machine

/-! ### Small states -/

/-- The next state, where there is one. -/
def nextOf : Host.Outcome State Fault Refusal → Option State
  | .next t => some t
  | .fault _ => none
  | .refused _ => none

/-- The reset state with some registers set, PC at `pc`, and bytes placed from there on. -/
def at_ (pc : PcWord) (bytes : List Byte) (regs : List (Fin 8 × Byte)) : State :=
  let s := regs.foldl (fun s r => s.setReg r.1 r.2) State.reset
  { s with pc := pc, mem := Memory.writeBytes [] pc.toNat bytes }

/-- One more byte of memory. -/
def withByte (n : Nat) (v : Byte) (s : State) : State := { s with mem := s.mem.write n v }

/-- The outcome of one step, read by `f`. -/
def after {α : Type} (s : State) (f : State → α) : Option α := (nextOf (step s)).map f

/-! ### Well-formedness: each check refuses an ill-formed term -/

theorem test_wf_register_a : (Instr.prn 8#8).regsInRange = false ∧ (Instr.prn 8#8).wellFormed = false ∧
    (Instr.prn 7#8).wellFormed = true := by decide

theorem test_wf_register_b : (Instr.add 0#8 8#8).wellFormed = false ∧ (Instr.add 9#8 0#8).wellFormed = false := by decide

theorem test_wf_immediate_is_no_register : (Instr.ldi 0#8 255#8).wellFormed = true ∧
    (Instr.ldi 8#8 0#8).wellFormed = false := by decide

theorem test_wf_profile : (Instr.sub 0#8 1#8).wellFormedIn false = false ∧ (Instr.sub 0#8 1#8).wellFormedIn true = true ∧
    (Instr.not 0#8).wellFormedIn false = false ∧ (Instr.mul 0#8 1#8).wellFormedIn false = true := by decide

/-! ### Decoding: every row's word, written out from 30_encoding.md R80 and R87 -/

theorem test_decode_no_operand :
    (decodeBytes true [0b00000001#8, 0xFF#8, 0xFF#8]).toOption = some .hlt ∧
    (decodeBytes true [0b00010001#8, 0x00#8, 0x00#8]).toOption = some .ret := by decide

theorem test_decode_stack :
    (decodeBytes true [0b01000101#8, 0b00000011#8, 0x00#8]).toOption = some (.push 3#8) ∧
    (decodeBytes true [0b01000110#8, 0b00000100#8, 0x00#8]).toOption = some (.pop 4#8) ∧
    (decodeBytes true [0b01010000#8, 0b00000001#8, 0x00#8]).toOption = some (.call 1#8) := by decide

theorem test_decode_data :
    (decodeBytes true [0b01000111#8, 0b00000101#8, 0x00#8]).toOption = some (.prn 5#8) ∧
    (decodeBytes true [0b10000010#8, 0b00000110#8, 0b10000001#8]).toOption = some (.ldi 6#8 0x81#8) := by decide

theorem test_decode_branch :
    (decodeBytes true [0b01010100#8, 0b00000010#8, 0x00#8]).toOption = some (.jmp 2#8) ∧
    (decodeBytes true [0b01010101#8, 0b00000010#8, 0x00#8]).toOption = some (.jeq 2#8) ∧
    (decodeBytes true [0b01010110#8, 0b00000010#8, 0x00#8]).toOption = some (.jne 2#8) ∧
    (decodeBytes true [0b10100111#8, 0b00000010#8, 0b00000011#8]).toOption = some (.cmp 2#8 3#8) := by decide

theorem test_decode_alu_both_profiles :
    (decodeBytes false [0b10100000#8, 0b00000010#8, 0b00000011#8]).toOption = some (.add 2#8 3#8) ∧
    (decodeBytes false [0b10100010#8, 0b00000010#8, 0b00000011#8]).toOption = some (.mul 2#8 3#8) := by decide

theorem test_decode_alu_extended :
    (decodeBytes true [0b10100001#8, 0b00000010#8, 0b00000011#8]).toOption = some (.sub 2#8 3#8) ∧
    (decodeBytes true [0b10101000#8, 0b00000010#8, 0b00000011#8]).toOption = some (.and 2#8 3#8) ∧
    (decodeBytes true [0b10101010#8, 0b00000010#8, 0b00000011#8]).toOption = some (.or 2#8 3#8) ∧
    (decodeBytes true [0b10101011#8, 0b00000010#8, 0b00000011#8]).toOption = some (.xor 2#8 3#8) ∧
    (decodeBytes true [0b01101001#8, 0b00000010#8, 0x00#8]).toOption = some (.not 2#8) ∧
    (decodeBytes true [0b10101100#8, 0b00000010#8, 0b00000011#8]).toOption = some (.shl 2#8 3#8) ∧
    (decodeBytes true [0b10101101#8, 0b00000010#8, 0b00000011#8]).toOption = some (.shr 2#8 3#8) := by decide

/-- 30_encoding.md R89, R90: 0x00 and the wider-LS8 LD are illegal; SUB is illegal in LS8-DOC. -/
theorem test_decode_rejects :
    (decodeBytes true [0x00#8, 0#8, 0#8]).toOption = none ∧ (decodeBytes true [0x83#8, 0#8, 1#8]).toOption = none ∧
    (decodeBytes false [0xA1#8, 0#8, 1#8]).toOption = none := by decide

/-- The encoder on E2's program (95_test_vectors.md). -/
theorem test_encode : [Instr.ldi 0#8 8#8, .ldi 1#8 9#8, .mul 0#8 1#8, .prn 0#8, .hlt].flatMap encode =
    [0x82#8, 0x00#8, 0x08#8, 0x82#8, 0x01#8, 0x09#8, 0xA2#8, 0x00#8, 0x01#8, 0x47#8, 0x00#8, 0x01#8] := by decide

/-- The table's numbering: bit 0 is the least significant bit of the first byte; bits above `nbits` are 0. -/
theorem test_table_word : decodeTableWord 24 0x0302A0 = some (.add 2#8 3#8) ∧
    decodeTableWord 8 0xFFFF01 = some .hlt ∧ decodeTableWord 16 0x0545 = some (.push 5#8) ∧
    decodeTableWord 8 0x00 = none := by decide

/-- The placed word is what the next step runs: V-DAT-1 of 95_test_vectors.md. -/
theorem test_placed_word : after (State.reset.withFetchWord 24 0x800582) (fun t => (t.reg 5, t.pc, t.fault)) =
    some (0x80#8, 3#9, none) := by decide

/-! ### One step (95_test_vectors.md, L1 and L2) -/

/-- V-SEQ-1: HLT at 253. -/
theorem test_hlt : after (at_ 253#9 [0x01#8] []) (fun t => (t.halted, t.pc, t.fault)) = some (true, 254#9, none) := by decide

/-- V-SEQ-2 and V-SEQ-3: no instruction starts at 254 or 255. -/
theorem test_fetch_fault :
    after (at_ 254#9 [0x01#8] []) (fun t => (t.halted, t.pc, t.fault)) =
      some (false, 254#9, some ⟨.addressingFault, some .fetch, 254#9, none, some 256⟩) ∧
    after (at_ 255#9 [0x01#8] []) (fun t => t.fault) =
      some (some ⟨.addressingFault, some .fetch, 255#9, none, some 256⟩) := by decide

/-- V-SEQ-4: a three-byte instruction at 253 leaves PC = 256. -/
theorem test_pc_256 : after (at_ 253#9 [0x82#8, 0#8, 5#8] []) (fun t => (t.reg 0, t.pc)) = some (5#8, 256#9) := by decide

/-- V-SEQ-6, E8: an illegal opcode is not skipped. -/
theorem test_illegal :
    after (at_ 0#9 [0x00#8] []) (fun t => (t.pc, t.fault)) =
      some (0#9, some ⟨.illegalInstruction, none, 0#9, some 0x00#8, none⟩) ∧
    after (at_ 0#9 [0xFF#8] []) (fun t => (t.pc, t.fault)) =
      some (0#9, some ⟨.illegalInstruction, none, 0#9, some 0xFF#8, none⟩) := by decide

/-- V-REG-2: operand a is checked first. -/
theorem test_register_order : after (at_ 0#9 [0xA0#8, 9#8, 8#8] []) (fun t => t.fault) =
    some (some ⟨.addressingFault, some .register, 0#9, some 0xA0#8, some 9⟩) := by decide

/-- V-REG-5: the register fault comes before the stack fault. -/
theorem test_register_before_stack : after (at_ 0#9 [0x45#8, 9#8] [(7, 0#8)]) (fun t => t.fault) =
    some (some ⟨.addressingFault, some .register, 0#9, some 0x45#8, some 9⟩) := by decide

/-- V-DAT-1; E3 on register 7. -/
theorem test_ldi :
    after (at_ 0#9 [0x82#8, 5#8, 0x80#8] []) (fun t => (t.reg 5, t.pc)) = some (0x80#8, 3#9) ∧
    after (at_ 0#9 [0x82#8, 7#8, 0x00#8] []) (fun t => t.sp) = some 0#8 := by decide

/-- V-DAT-3 and V-DAT-4. -/
theorem test_prn :
    after (at_ 0#9 [0x47#8, 1#8] [(1, 0xFF#8)]) (fun t => (t.out, t.pc)) = some ([0xFF#8], 2#9) ∧
    after (at_ 0#9 [0x47#8, 7#8] []) (fun t => t.out) = some [244#8] := by decide

/-- The ALU tests read the destination, the other register, FL and PC. -/
def alu (op x y : Byte) : Option (Byte × Byte × Byte × PcWord) :=
  after (at_ 0#9 [op, 0#8, 1#8] [(0, x), (1, y)]) (fun t => (t.reg 0, t.reg 1, t.fl, t.pc))

/-- V-ALU-3. -/
theorem test_mul : alu 0xA2#8 0xFF#8 0xFF#8 = some (0x01#8, 0xFF#8, 0#8, 3#9) := by decide

/-- V-ALU-5, E1; V-ALU-22: one register as both operands. -/
theorem test_add : alu 0xA0#8 0xC8#8 0x64#8 = some (0x2C#8, 0x64#8, 0#8, 3#9) ∧
    after (at_ 0#9 [0xA0#8, 0#8, 0#8] [(0, 0x0C#8)]) (fun t => t.reg 0) = some 0x18#8 := by decide

/-- V-ALU-24: the stack pointer wraps in the ALU without a fault. -/
theorem test_add_sp : after (at_ 0#9 [0xA0#8, 7#8, 1#8] [(1, 0x0C#8)]) (fun t => (t.sp, t.fault)) =
    some (0x00#8, none) := by decide

/-- V-ALU-6. -/
theorem test_sub : alu 0xA1#8 0x03#8 0x05#8 = some (0xFE#8, 0x05#8, 0#8, 3#9) := by decide

/-- V-ALU-9. -/
theorem test_and : alu 0xA8#8 0xF0#8 0x3C#8 = some (0x30#8, 0x3C#8, 0#8, 3#9) := by decide

/-- V-ALU-10. -/
theorem test_or : alu 0xAA#8 0xF0#8 0x0F#8 = some (0xFF#8, 0x0F#8, 0#8, 3#9) := by decide

/-- V-ALU-11. -/
theorem test_xor : alu 0xAB#8 0xFF#8 0x0F#8 = some (0xF0#8, 0x0F#8, 0#8, 3#9) := by decide

/-- V-ALU-13. -/
theorem test_not : after (at_ 0#9 [0x69#8, 0#8] [(0, 0xA5#8)]) (fun t => (t.reg 0, t.fl, t.pc)) =
    some (0x5A#8, 0#8, 2#9) := by decide

/-- V-ALU-15 and V-ALU-17. -/
theorem test_shl : alu 0xAC#8 0x81#8 0x01#8 = some (0x02#8, 0x01#8, 0#8, 3#9) ∧
    alu 0xAC#8 0x01#8 0x08#8 = some (0x00#8, 0x08#8, 0#8, 3#9) := by decide

/-- V-ALU-19 and V-ALU-21: logical, and the count is not masked. -/
theorem test_shr : alu 0xAD#8 0x80#8 0x07#8 = some (0x01#8, 0x07#8, 0#8, 3#9) ∧
    alu 0xAD#8 0xFF#8 0xC8#8 = some (0x00#8, 0xC8#8, 0#8, 3#9) := by decide

/-- V-STK-1 and V-STK-3. -/
theorem test_push :
    after (at_ 0#9 [0x45#8, 0#8] [(0, 0x2A#8)]) (fun t => (t.sp, t.byteAt 0xF3, t.pc)) = some (0xF3#8, 0x2A#8, 2#9) ∧
    after (at_ 0#9 [0x45#8, 7#8] []) (fun t => (t.sp, t.byteAt 0xF3)) = some (0xF3#8, 0xF3#8) := by decide

/-- V-STK-6. -/
theorem test_push_bound : after (at_ 0#9 [0x45#8, 0#8] [(7, 0#8)]) (fun t => (t.sp, t.pc, t.fault)) =
    some (0#8, 0#9, some ⟨.addressingFault, some .stack, 0#9, some 0x45#8, some (-1)⟩) := by decide

/-- V-STK-2 and V-STK-4. -/
theorem test_pop :
    after (withByte 0xF3 0x2A#8 (at_ 0#9 [0x46#8, 1#8] [(7, 0xF3#8)])) (fun t => (t.reg 1, t.sp, t.byteAt 0xF3)) =
      some (0x2A#8, 0xF4#8, 0x2A#8) ∧
    after (withByte 0xF4 0x10#8 (at_ 0#9 [0x46#8, 7#8] [])) (fun t => t.sp) = some 0x11#8 := by decide

/-- V-STK-8 and V-STK-5. -/
theorem test_pop_bound :
    after (at_ 0#9 [0x46#8, 0#8] [(7, 0xFF#8), (0, 3#8)]) (fun t => (t.reg 0, t.sp, t.fault)) =
      some (3#8, 0xFF#8, some ⟨.addressingFault, some .stack, 0#9, some 0x46#8, some 256⟩) ∧
    after (withByte 0xF4 0xFF#8 (at_ 0#9 [0x46#8, 7#8] [])) (fun t => (t.sp, t.fault)) =
      some (0xF4#8, some ⟨.addressingFault, some .stack, 0#9, some 0x46#8, some 256⟩) := by decide

/-- V-STK-12 and V-STK-13. -/
theorem test_call :
    after (at_ 0x20#9 [0x50#8, 1#8] [(1, 0x40#8)]) (fun t => (t.byteAt 0xF3, t.sp, t.pc)) = some (0x22#8, 0xF3#8, 0x40#9) ∧
    after (at_ 0x20#9 [0x50#8, 7#8] []) (fun t => (t.byteAt 0xF3, t.sp, t.pc)) = some (0x22#8, 0xF3#8, 0xF3#9) := by decide

/-- V-STK-7. -/
theorem test_call_bound : after (at_ 0#9 [0x50#8, 0#8] [(7, 0#8)]) (fun t => t.fault) =
    some (some ⟨.addressingFault, some .stack, 0#9, some 0x50#8, some (-1)⟩) := by decide

/-- V-STK-14 and V-STK-9. -/
theorem test_ret :
    after (withByte 0xF2 0x0A#8 (at_ 0#9 [0x11#8] [(7, 0xF2#8)])) (fun t => (t.pc, t.sp)) = some (0x0A#9, 0xF3#8) ∧
    after (at_ 0#9 [0x11#8] [(7, 0xFF#8)]) (fun t => t.fault) =
      some (some ⟨.addressingFault, some .stack, 0#9, some 0x11#8, some 256⟩) := by decide

/-- V-CMP-3, V-CMP-4 and V-CMP-5: unsigned, and one register as both operands. -/
theorem test_cmp :
    (after (at_ 0#9 [0xA7#8, 0#8, 1#8] [(0, 0x00#8), (1, 0xFF#8)]) (fun t => (t.fl, t.pc)) = some (4#8, 3#9)) ∧
    (after (at_ 0#9 [0xA7#8, 0#8, 1#8] [(0, 0xFF#8), (1, 0x00#8)]) (fun t => t.fl) = some 2#8) ∧
    (after (at_ 0#9 [0xA7#8, 0#8, 0#8] [(0, 0x77#8)]) (fun t => t.fl) = some 1#8) := by decide

/-- V-CMP-6: the old FL is overwritten. -/
theorem test_cmp_overwrites :
    after ((at_ 0#9 [0xA7#8, 0#8, 1#8] [(0, 9#8), (1, 9#8)]).setFl 4#8) (fun t => t.fl) = some 1#8 := by decide

/-- V-BR-1 and V-BR-8. -/
theorem test_jmp :
    after (at_ 0#9 [0x54#8, 2#8] [(2, 0x10#8)]) (fun t => t.pc) = some 0x10#9 ∧
    after (at_ 0#9 [0x54#8, 0#8] [(0, 0xFE#8)]) (fun t => (t.pc, t.fault)) = some (0xFE#9, none) := by decide

/-- V-BR-2 and V-BR-3. -/
theorem test_jeq :
    after ((at_ 0#9 [0x55#8, 4#8] [(4, 0x19#8)]).setFl 1#8) (fun t => t.pc) = some 0x19#9 ∧
    after ((at_ 0#9 [0x55#8, 4#8] [(4, 0x19#8)]).setFl 4#8) (fun t => t.pc) = some 2#9 := by decide

/-- V-REG-4: the register is checked when the branch is not taken. -/
theorem test_jeq_checks : after (at_ 0#9 [0x55#8, 8#8] []) (fun t => t.fault) =
    some (some ⟨.addressingFault, some .register, 0#9, some 0x55#8, some 8⟩) := by decide

/-- V-BR-5 and V-BR-6. -/
theorem test_jne :
    after ((at_ 0#9 [0x56#8, 3#8] [(3, 0x0F#8)]).setFl 2#8) (fun t => t.pc) = some 0x0F#9 ∧
    after ((at_ 0#9 [0x56#8, 3#8] [(3, 0x0F#8)]).setFl 1#8) (fun t => t.pc) = some 2#9 := by decide

/-! ### The ports (70_reset_and_hazards.md) -/

/-- V-SEQ-7: a step request after HLT changes nothing. -/
theorem test_request_halted : ((at_ 0#9 [0x01#8, 0xFF#8, 0xFF#8] []).stepRequest).stepRequest =
    (at_ 0#9 [0x01#8, 0xFF#8, 0xFF#8] []).stepRequest := by decide

/-- V-LD-5: a load after a step has no effect. -/
theorem test_load_refused : (({ state := State.reset, loadOpen := true } : Block).stepRequest).load [0x01#8] =
    ({ state := State.reset, loadOpen := true } : Block).stepRequest := by decide

/-- 20_memory.md R68: fetch reads in address order, then the instruction's one transaction. -/
theorem test_events_push : stepEvents (at_ 0#9 [0x45#8, 0#8] [(0, 0x2A#8)]) =
    [.memRead 0 0x45#8, .memRead 1 0#8, .memRead 2 0#8, .memWrite 0xF3 0x2A#8] := by decide

/-- 10_state.md R43: PRN of an unwritten register stops; after an LDI of it, it does not. -/
theorem test_strict :
    strictStep { StrictState.reset with state := at_ 0#9 [0x47#8, 0#8] [] } = .fault (.unwrittenRead (.reg 0#8)) ∧
    strictStep { StrictState.reset with state := at_ 0#9 [0x55#8, 7#8] [] } = .fault (.unwrittenRead .fl) :=
  ⟨rfl, rfl⟩

/-- 10_state.md R43: LDI writes a register. -/
theorem test_strict_write :
    ∃ t, strictStep { StrictState.reset with state := at_ 0#9 [0x82#8, 0#8, 5#8] [] } =
      .next { state := t, unwritten := [.reg 1#8, .reg 2#8, .reg 3#8, .reg 4#8, .reg 5#8, .reg 6#8, .fl] } :=
  ⟨_, rfl⟩

/-! ### Witnesses: inputs that meet the hypotheses of the statements, clause by clause, at the boundary values -/

/-- A state at 253 whose invariant holds and whose step commits. -/
def atEnd : State := at_ 253#9 [0x82#8, 0#8, 5#8] []

theorem witness_StepKeepsTheInvariant : StateInv atEnd ∧ (nextOf (step atEnd)).isSome = true :=
  ⟨⟨by decide, by decide, by decide, by decide, fun r h => by cases h⟩, by decide⟩

/-- The invariant also holds in a Faulted state, here after a failed load. -/
theorem witness_PortsKeepTheInvariant :
    BlockInv { state := atEnd, loadOpen := false } ∧
    BlockInv { state := { atEnd with pc := 0#9, fault := some (.load 257) }, loadOpen := false } :=
  ⟨⟨⟨by decide, by decide, by decide, by decide, fun r h => by cases h⟩, fun h => by cases h⟩,
   ⟨⟨by decide, by decide, by decide, by decide,
     fun r h => by cases h; exact ⟨rfl, rfl, 257, by decide, rfl⟩⟩, fun h => by cases h⟩⟩

theorem witness_DecodeOfEncodeIsTheInstruction :
    (Instr.add 0xFF#8 0#8).inProfile false = true ∧ (Instr.sub 0#8 0xFF#8).inProfile true = true := by decide

theorem witness_EncodeOfDecodeIsTheBytes :
    decode false 0x01#8 0xFF#8 0xFF#8 = .ok .hlt ∧ decode true 0xA1#8 0xFF#8 8#8 = .ok (.sub 0xFF#8 8#8) := ⟨rfl, rfl⟩

theorem witness_BytesOutsideTheMapAreRejected :
    0xFF#8 ∉ profileOpcodes true ∧ 0xA1#8 ∉ profileOpcodes false := by decide

theorem witness_StepRunsTheDecodedInstruction : atEnd.running = true ∧ atEnd.pc.toNat ≤ 253 ∧
    decode Config.aluExt (atEnd.byteAt atEnd.pc.toNat) (atEnd.byteAt (atEnd.pc.toNat + 1))
      (atEnd.byteAt (atEnd.pc.toNat + 2)) = .ok (.ldi 0#8 5#8) := ⟨by decide, by decide, rfl⟩

theorem witness_FetchPastTheEndFaults : ∀ pc ∈ [254#9, 255#9, 256#9],
    (at_ pc [] []).running = true ∧ 253 < (at_ pc [] []).pc.toNat ∧ (at_ pc [] []).pc.toNat ≤ 256 := by decide

/-- The first two clauses: an illegal byte, in either profile, and a legal one whose step takes another fault. -/
theorem witness_IllegalOpcodeFaults :
    ((at_ 253#9 [0xFF#8] []).running = true ∧ (at_ 253#9 [0xFF#8] []).pc.toNat ≤ 253 ∧
      (at_ 253#9 [0xFF#8] []).byteAt 253 ∉ profileOpcodes true) ∧
    (at_ 0#9 [0xA1#8] []).byteAt 0 ∉ profileOpcodes false ∧
    ((at_ 0#9 [0x45#8, 9#8] []).byteAt 0 ∈ profileOpcodes true ∧
      after (at_ 0#9 [0x45#8, 9#8] []) (fun t => t.fault.isSome) = some true) := by decide

theorem witness_RegisterOperandOverSevenFaults :
    (Instr.prn 8#8).regOperands.find? (fun x => decide (8 ≤ x.toNat)) = some 8#8 ∧
    (Instr.add 7#8 0xFF#8).regOperands.find? (fun x => decide (8 ≤ x.toNat)) = some 0xFF#8 := by decide

/-- Each clause: SP = 0, SP = 255, and a loaded byte of 255 (the stack statements share these). -/
theorem witness_StackBoundsFault :
    ((at_ 0#9 [] [(7, 0#8)]).reg 7).toNat = 0 ∧ ((0 : Fin 8) ≠ 7 ∧ ((at_ 0#9 [] [(7, 255#8)]).reg 7).toNat = 255) ∧
    ((withByte 0xF4 255#8 (at_ 0#9 [] [])).byteAt ((withByte 0xF4 255#8 (at_ 0#9 [] [])).reg 7).toNat).toNat = 255 := by decide

/-- Running at each of the four cases of the first clause; both cases of the second. -/
theorem witness_FaultOrder :
    ((at_ 254#9 [] []).running = true ∧ (at_ 0#9 [0#8] []).running = true ∧
      (at_ 0#9 [0x47#8, 8#8] []).running = true ∧ atEnd.running = true) ∧
    ((Instr.push 7#8).regsInRange = true ∧ (nextOf (exec (.push 7#8) (at_ 0#9 [] []))).isSome = true) ∧
    (nextOf (exec (.push 7#8) (at_ 0#9 [] [(7, 0#8)]))).isSome = true := by decide

theorem witness_FaultsArePrecise :
    after (at_ 0#9 [0x46#8, 0#8] [(7, 255#8)]) (fun t => t.fault) =
      some (some (.stack 0#9 0x46#8 256)) := by decide

theorem witness_EveryRunningStepCompletes : (at_ 256#9 [] []).running = true ∧ State.reset.running = true := by decide

theorem witness_NoStepUnlessRunning : (atEnd.halt).running = false ∧
    (atEnd.fail (.illegal 253#9 0#8)).running = false := by decide

theorem witness_StateMachineTransitions :
    ((at_ 253#9 [0x01#8] []).running = true ∧ after (at_ 253#9 [0x01#8] []) (fun t => t.status) = some .halted) ∧
    ((at_ 254#9 [0x01#8] []).running = true ∧
      after (at_ 254#9 [0x01#8] []) (fun t => t.status) = some (.faulted (.fetch 254#9 256))) := by decide

theorem witness_OnlyHltSetsHalted :
    (Instr.ldi 0#8 0#8 ≠ .hlt ∧ (nextOf (exec (.ldi 0#8 0#8) atEnd)).isSome = true) ∧
    ({ state := atEnd.halt, loadOpen := false } : Block).state.halted = true ∧
    ({ state := atEnd.halt, loadOpen := true } : Block).state.halted = true := by decide

theorem witness_OnlyCmpWritesFlags :
    (∀ a b : Byte, Instr.prn 0#8 ≠ .cmp a b) ∧ (nextOf (exec (.prn 0#8) atEnd)).isSome = true :=
  ⟨fun _ _ h => (by cases h), by decide⟩

/-- Both ways into the first clause; the second clause has its own states. -/
theorem witness_OnlyJeqAndJneReadFlags :
    (0b110#8).getLsbD 0 = State.reset.fl.getLsbD 0 ∧
    ((∀ a : Byte, Instr.hlt ≠ .jeq a) ∧ (∀ a : Byte, Instr.hlt ≠ .jne a)) :=
  ⟨by decide, fun _ h => (by cases h), fun _ h => (by cases h)⟩

/-- The premises that every form shares: each opcode byte at PC, at 253 and at 254, Running. -/
theorem witness_RunsAs : ∀ o ∈ Op.table, ∀ pc ∈ [253#9, 254#9],
    (at_ pc [o.opcode] []).running = true ∧ (at_ pc [o.opcode] []).byteAt pc.toNat = o.opcode := by decide

/-- The premises on operand bytes that every form shares. -/
theorem witness_UnaryForm_BinaryForm : 7 < (8#8).toNat ∧ 7 < (255#8).toNat ∧ (7#8).toNat ≤ 7 ∧ (regByte 7).toNat ≤ 7 := by
  decide

/-- SHL and SHR by exactly 8 and by 255. -/
theorem witness_ShlShiftsByTheWholeRegister_ShrShiftsByTheWholeRegister : ∀ n ∈ [8#8, 255#8],
    8 ≤ ((at_ 0#9 [] [(1, n)]).reg 1).toNat ∧
    (nextOf (exec (.shl (regByte 0) (regByte 1)) (at_ 0#9 [] [(1, n)]))).isSome = true ∧
    (nextOf (exec (.shr (regByte 0) (regByte 1)) (at_ 0#9 [] [(1, n)]))).isSome = true := by decide

/-- Each of the three comparisons, at the extremes. -/
theorem witness_CmpSetsExactlyOneFlag :
    ((at_ 0#9 [] []).reg 0).toNat = ((at_ 0#9 [] []).reg 1).toNat ∧
    ((at_ 0#9 [] [(0, 255#8)]).reg 1).toNat < ((at_ 0#9 [] [(0, 255#8)]).reg 0).toNat ∧
    ((at_ 0#9 [] [(1, 255#8)]).reg 0).toNat < ((at_ 0#9 [] [(1, 255#8)]).reg 1).toNat := by decide

theorem witness_Advances : atEnd.pc.toNat ≤ 253 ∧ State.reset.pc.toNat ≤ 253 := by decide

/-- JEQ and JNE: E set and E clear; the last two clauses of the set-PC class need these too. -/
theorem witness_JeqGoesWhenEqual_JneGoesWhenNotEqual_SetPcClass :
    (State.reset.setFl 1#8).fl.getLsbD 0 = true ∧ State.reset.fl.getLsbD 0 = false ∧
    (nextOf (exec (.jeq (regByte 0)) State.reset)).isSome = true ∧
    (nextOf (exec (.jne (regByte 0)) (State.reset.setFl 1#8))).isSome = true := by decide

/-- PUSH at SP = 1 and at SP = 0. -/
theorem witness_PushStoresBelowTheStack :
    ((at_ 0#9 [] [(7, 1#8)]).mem.wf = true ∧ 0 < ((at_ 0#9 [] [(7, 1#8)]).reg 7).toNat) ∧
    ((at_ 0#9 [] [(7, 0#8)]).reg 7).toNat = 0 := by decide

/-- POP at SP = 254 and 255; POP R7 loading 254 and 255. -/
theorem witness_PopLoadsTheTop :
    ((0 : Fin 8) ≠ 7 ∧ ((at_ 0#9 [] [(7, 254#8)]).reg 7).toNat < 255) ∧ ((at_ 0#9 [] [(7, 255#8)]).reg 7).toNat = 255 ∧
    ((withByte 255 254#8 (at_ 0#9 [] [(7, 255#8)])).byteAt 255).toNat < 255 ∧
    ((withByte 255 255#8 (at_ 0#9 [] [(7, 255#8)])).byteAt 255).toNat = 255 := by decide

/-- CALL at 253 with SP = 1, and with SP = 0. -/
theorem witness_CallPushesTheReturnAddress :
    ((at_ 253#9 [] [(7, 1#8)]).mem.wf = true ∧ (at_ 253#9 [] [(7, 1#8)]).pc.toNat ≤ 253 ∧
      0 < ((at_ 253#9 [] [(7, 1#8)]).reg 7).toNat) ∧
    ((at_ 253#9 [] [(7, 0#8)]).reg 7).toNat = 0 := by decide

theorem witness_RetPopsThePc :
    ((at_ 0#9 [] [(7, 254#8)]).reg 7).toNat < 255 ∧ ((at_ 0#9 [] [(7, 255#8)]).reg 7).toNat = 255 := by decide

theorem witness_PushThenPop : (2 : Fin 8) ≠ 7 ∧ (3 : Fin 8) ≠ 7 ∧ (at_ 0#9 [] [(7, 1#8)]).mem.wf = true ∧
    0 < ((at_ 0#9 [] [(7, 1#8)]).reg 7).toNat := by decide

/-- CALL from 253 with SP = 1; and a CALL with another state that has SP and the byte at SP as that CALL left them. -/
theorem witness_CallThenRet :
    ((at_ 253#9 [] [(7, 1#8)]).mem.wf = true ∧ (at_ 253#9 [] [(7, 1#8)]).pc.toNat ≤ 253 ∧
      0 < ((at_ 253#9 [] [(7, 1#8)]).reg 7).toNat) ∧
    (nextOf (exec (.call (regByte 1)) (at_ 0x20#9 [] []))).map (fun t => (t.reg 7, t.byteAt (t.reg 7).toNat)) =
      some (0xF3#8, 0x22#8) ∧
    (withByte 0xF3 0x22#8 (at_ 0x80#9 [] [(7, 0xF3#8)])).reg 7 = 0xF3#8 ∧
    (withByte 0xF3 0x22#8 (at_ 0x80#9 [] [(7, 0xF3#8)])).byteAt 0xF3 = 0x22#8 := by decide

theorem witness_PushesNestToTheBound : 244 ≤ (State.reset.reg 7).toNat ∧ 0 ≤ ((at_ 0#9 [] [(7, 0#8)]).reg 7).toNat ∧
    State.reset.reg 7 = 0xF4#8 := by decide

theorem witness_MemoryPortReadsAndWrites : (0 : Nat) ≤ 255 ∧ (255 : Nat) ≤ 255 ∧ atEnd.mem.wf = true ∧
    ((-1 : Int) < 0 ∨ 255 < (-1 : Int)) ∧ ((256 : Int) < 0 ∨ 255 < (256 : Int)) := by decide

/-- A PUSH of 0x2A onto a zero cell: a byte changes, by a write transaction; the same for a CALL. -/
theorem witness_MemoryChangesOnlyByWrites :
    (at_ 0#9 [0x45#8, 0#8] [(0, 0x2A#8)]).mem.wf = true ∧
    after (at_ 0#9 [0x45#8, 0#8] [(0, 0x2A#8)]) (fun t => t.byteAt 0xF3) = some 0x2A#8 ∧
    PortEvent.memWrite 0xF3 0x2A#8 ∈ stepEvents (at_ 0#9 [0x45#8, 0#8] [(0, 0x2A#8)]) ∧
    PortEvent.memWrite 0xF3 0x02#8 ∈ stepEvents (at_ 0#9 [0x50#8, 0#8] []) := by decide

/-- A PRN, and a step that emits nothing. -/
theorem witness_OutputGrowsByWhatIsEmitted :
    after (at_ 0#9 [0x47#8, 7#8] []) (fun t => t.out) = some [0xF4#8] ∧ emitted (stepEvents (at_ 0#9 [0x47#8, 7#8] [])) = [0xF4#8] ∧
    after atEnd (fun t => t.out) = some [] := by decide

theorem witness_ProgramsCannotReadOutput : (nextOf (step (at_ 0#9 [0x47#8, 7#8] []))).isSome = true := by decide

theorem witness_LoadPlacesTheProgram : (List.replicate 256 0x01#8).length ≤ 256 ∧ ([] : List Byte).length ≤ 256 :=
  ⟨List.length_replicate.le, by decide⟩

theorem witness_OverlongLoadFaults : 256 < (List.replicate 257 0x01#8).length :=
  List.length_replicate ▸ (by decide : 256 < 257)

theorem witness_LoadIsRefusedLater : ({ state := State.reset, loadOpen := true } : Block).state.running = true ∧
    ({ state := State.reset, loadOpen := false } : Block).loadOpen = false := by decide

/-- One step of an illegal opcode ends a run; a run that starts Halted has ended. -/
theorem witness_RunRepeatsSteps :
    (1 ≤ 3 ∧ (Block.runRequest 1 { state := State.reset, loadOpen := true }).state.running = false) ∧
    ({ state := atEnd.halt, loadOpen := false } : Block).state.running = false := by decide

theorem witness_StatusAndInspectionPorts : (atEnd.halt.halted = true → atEnd.halt.fault = none) ∧
    ((atEnd.fail (.load 257)).halted = true → (atEnd.fail (.load 257)).fault = none) := by decide

/-- An extended opcode at 253; and each way into the second clause. -/
theorem witness_Ls8DocProfile :
    ((at_ 253#9 [0xA1#8] []).running = true ∧ (at_ 253#9 [0xA1#8] []).pc.toNat ≤ 253 ∧
      (at_ 253#9 [0xA1#8] []).byteAt 253 ∈ [0x69#8, 0xA1#8, 0xA8#8, 0xAA#8, 0xAB#8, 0xAC#8, 0xAD#8]) ∧
    atEnd.byteAt 253 ∉ [0x69#8, 0xA1#8, 0xA8#8, 0xAA#8, 0xAB#8, 0xAC#8, 0xAD#8] ∧
    253 < (at_ 254#9 [0xA1#8] []).pc.toNat ∧ ((at_ 253#9 [0xA1#8] []).halt).running = false := by decide

/-- Clause by clause: a fault taken (PUSH of an unwritten register at SP = 0), nothing unwritten read (LDI at 253), the
second of two registers unwritten (ADD), a stop of the step, a committed step, and an unwritten read. -/
theorem witness_StrictStepIsTheStepOnWrittenState :
    after (at_ 0#9 [0x45#8, 0#8] [(7, 0#8)]) (fun t => t.fault.isSome) = some true ∧
    (after atEnd (fun t => t.fault) = some none ∧ DecodesAtPc atEnd (.ldi 0#8 5#8) ∧
      ∀ x ∈ readItems (.ldi 0#8 5#8) atEnd, x ∉ StrictState.reset.unwritten) ∧
    (after (at_ 253#9 [0xA0#8, 7#8, 1#8] []) (fun t => t.fault) = some none ∧
      DecodesAtPc (at_ 253#9 [0xA0#8, 7#8, 1#8] []) (.add 7#8 1#8) ∧
      readItems (.add 7#8 1#8) (at_ 253#9 [0xA0#8, 7#8, 1#8] []) = [.reg 7#8] ++ .reg 1#8 :: [] ∧
      (∀ y ∈ [StrictItem.reg 7#8], y ∉ StrictState.reset.unwritten) ∧ .reg 1#8 ∈ StrictState.reset.unwritten) ∧
    step atEnd.halt = .fault .halted ∧
    (∃ l, strictStep { StrictState.reset with state := atEnd } = .next l) ∧
    strictStep { StrictState.reset with state := at_ 0#9 [0x47#8, 0#8] [] } = .fault (.unwrittenRead (.reg 0#8)) :=
  ⟨by decide, ⟨by decide, ⟨by decide, rfl⟩, by decide⟩, ⟨by decide, ⟨by decide, rfl⟩, rfl, by decide, by decide⟩, rfl,
    ⟨_, rfl⟩, rfl⟩

/-- The reset state of the mode, beside the same state with another value in an unwritten register. -/
theorem witness_StrictOutcomesIgnoreUnwrittenValues :
    .reg 7#8 ∉ StrictState.reset.unwritten ∧
    SameWritten StrictState.reset.unwritten (at_ 0#9 [0x82#8, 0#8, 5#8] []) (at_ 0#9 [0x82#8, 0#8, 5#8] [(3, 9#8)]) ∧
    ∃ k, strictStep { StrictState.reset with state := at_ 0#9 [0x82#8, 0#8, 5#8] [] } = .next k :=
  ⟨by decide, ⟨by decide, by decide, by decide⟩, _, rfl⟩

end Sys2Proof.Tests
end

section
/-! PROOFS. The family 10_state.md. FL and halted are the two fields no datapath reads: replacing them before an
instruction replaces them after it (`exec_withFlags`), but for HLT and CMP, which write one of them, and for JEQ and JNE,
which read bit 0 of FL. -/

namespace Sys2Proof.Machine

/-! ### Replacing FL and halted -/

/-- The state with another FL and another halted flag. -/
def State.withFlags (s : State) (fl : Byte) (hd : Bool) : State := { s with fl := fl, halted := hd }

/-- An execute part whose working copy has another FL and another halted flag. -/
def ExecPart.withFlags (p : ExecPart) (fl : Byte) (hd : Bool) : ExecPart :=
  (fun q => (q.1.withFlags fl hd, q.2)) <$> p

section
variable (s : State) (fl : Byte) (hd : Bool) (o : Op) (i : Fin 8) (v : Byte)

@[simp] theorem State.withFlags_self : s.withFlags s.fl s.halted = s := rfl
@[simp] theorem State.withFlags_fl : (s.withFlags fl hd).fl = fl := rfl
@[simp] theorem State.withFlags_halted : (s.withFlags fl hd).halted = hd := rfl
@[simp] theorem State.withFlags_mem : (s.withFlags fl hd).mem = s.mem := rfl
@[simp] theorem State.withFlags_reg : (s.withFlags fl hd).reg i = s.reg i := rfl
@[simp] theorem State.withFlags_sp : (s.withFlags fl hd).sp = s.sp := rfl
@[simp] theorem State.withFlags_pc : (s.withFlags fl hd).pc = s.pc := rfl
@[simp] theorem State.withFlags_byteAt (n : Nat) : (s.withFlags fl hd).byteAt n = s.byteAt n := rfl
@[simp] theorem State.withFlags_setReg : (s.withFlags fl hd).setReg i v = (s.setReg i v).withFlags fl hd := rfl
@[simp] theorem State.withFlags_emit : (s.withFlags fl hd).emit v = (s.emit v).withFlags fl hd := rfl

@[simp] theorem regOperand_withFlags (r : Byte) : regOperand o (s.withFlags fl hd) r = regOperand o s r := rfl

@[simp] theorem memRead_withFlags (op : Option Byte) (addr : Int) :
    memRead (s.withFlags fl hd) op addr = memRead s op addr := rfl

@[simp] theorem memWrite_withFlags (op : Option Byte) (addr : Int) :
    memWrite (s.withFlags fl hd) op addr v = (·.withFlags fl hd) <$> memWrite s op addr v := by
  unfold memWrite
  split <;> rfl

@[simp] theorem decSp_withFlags : decSp o (s.withFlags fl hd) = (·.withFlags fl hd) <$> decSp o s := by
  rcases decSp_cases o s with ⟨h, hs⟩ | ⟨h, hs⟩
  · rw [hs]; exact decSp_of_pos o _ h
  · rw [hs]; exact decSp_of_zero o _ h

@[simp] theorem incSp_withFlags : incSp o (s.withFlags fl hd) = (·.withFlags fl hd) <$> incSp o s := by
  rcases incSp_cases o s with ⟨h, hs⟩ | ⟨h, hs⟩
  · rw [hs]; exact incSp_of_lt o _ h
  · rw [hs]; exact incSp_of_top o _ h

theorem aluPart_withFlags (f : Byte → Byte → Byte) (a b : Byte) :
    aluPart o f a b (s.withFlags fl hd) = (aluPart o f a b s).withFlags fl hd := by
  simp [aluPart, ExecPart.withFlags]

end

/-- Parts that agree but for FL and halted end in states that agree but for FL and halted. -/
theorem finish_withFlags {o : Op} {s t : State} {p p' : ExecPart} {fl : Byte} {hd : Bool}
    (hp : p' = p.withFlags fl hd) (h : finish o s p = .next t) :
    finish o (s.withFlags fl hd) p' = .next (t.withFlags fl hd) := by
  subst hp
  rcases finish_cases o s p with ⟨e, rfl, he⟩ | ⟨u, n, rfl, he⟩
  · cases he.symm.trans h; rfl
  · cases he.symm.trans h; rfl

/-! ### The shape of every instruction (40_step.md R105 to R108) -/

/-- Every instruction is an execute part and then the shared end of its row. -/
theorem exec_eq_finish (i : Instr) (s : State) : ∃ p, exec i s = finish i.op s p := by
  cases i <;> unfold exec <;> exact ⟨_, rfl⟩

theorem exec_next (i : Instr) (s : State) : ∃ t, exec i s = .next t := by
  obtain ⟨p, hp⟩ := exec_eq_finish i s
  rw [hp]
  exact finish_next i.op s p

/-! ### What instructions read and write of FL and halted (10_state.md R31, R32, R36) -/

/-- No instruction but HLT and CMP writes FL or halted, and none reads them, but for JEQ and JNE, which read E. -/
theorem exec_withFlags {i : Instr} {s t : State} {fl : Byte} (hd : Bool) (hhlt : i ≠ .hlt) (hcmp : ∀ a b, i ≠ .cmp a b)
    (hE : flagE fl = flagE s.fl ∨ ((∀ a, i ≠ .jeq a) ∧ ∀ a, i ≠ .jne a)) (h : exec i s = .next t) :
    exec i (s.withFlags fl hd) = .next (t.withFlags fl hd) := by
  cases i with
  | hlt => exact absurd rfl hhlt
  | cmp a b => exact absurd rfl (hcmp a b)
  | jeq a =>
    have hE : flagE fl = flagE s.fl := hE.resolve_right fun hn => hn.1 a rfl
    exact finish_withFlags (by simp [ExecPart.withFlags, hE]) h
  | jne a =>
    have hE : flagE fl = flagE s.fl := hE.resolve_right fun hn => hn.2 a rfl
    exact finish_withFlags (by simp [ExecPart.withFlags, hE]) h
  | ret | push a | pop a | prn a | call a | jmp a | not a | ldi a b =>
    exact finish_withFlags (by simp [ExecPart.withFlags, -memWrite_byte]) h
  | add a b | sub a b | mul a b | and a b | or a b | xor a b | shl a b | shr a b =>
    exact finish_withFlags (aluPart_withFlags ..) h

/-- What an instruction does not write it keeps: replacing FL and halted by themselves changes nothing. -/
theorem exec_keeps_flags {i : Instr} {s t : State} (hhlt : i ≠ .hlt) (hcmp : ∀ a b, i ≠ .cmp a b)
    (h : exec i s = .next t) : t.fl = s.fl ∧ t.halted = s.halted := by
  have h' := exec_withFlags s.halted hhlt hcmp (.inl rfl) h
  rw [State.withFlags_self, h] at h'
  injection h' with ht
  exact ⟨(congrArg State.fl ht :), (congrArg State.halted ht :)⟩

theorem execCmp_of_gt_left {a : Byte} (b : Byte) (s : State) (ha : 7 < a.toNat) :
    execCmp a b s = .next (s.fail (.register s.pc Op.cmp.opcode a)) := by
  simp [execCmp, regOperand_of_gt .cmp s ha]

theorem execCmp_of_gt_right (ra : Fin 8) {b : Byte} (s : State) (hb : 7 < b.toNat) :
    execCmp (regByte ra) b s = .next (s.fail (.register s.pc Op.cmp.opcode b)) := by
  simp [execCmp, regOperand_of_gt .cmp s hb]

/-- CMP reads neither FL nor halted; it writes the same FL over any, or takes a register fault and writes none. -/
theorem exec_cmp_withFlags {a b : Byte} {s t : State} (fl : Byte) (hd : Bool) (h : exec (.cmp a b) s = .next t) :
    t.halted = s.halted ∧ ∃ fl', exec (.cmp a b) (s.withFlags fl hd) = .next (t.withFlags fl' hd) ∧
      ((t.fl = s.fl ∧ fl' = fl) ∨ fl' = t.fl) := by
  rcases regOperand_cases .cmp s a with ⟨-, ra, rfl, -⟩ | ⟨ha, -⟩
  · rcases regOperand_cases .cmp s b with ⟨-, rb, rfl, -⟩ | ⟨hb, -⟩
    · cases h.symm.trans (execCmp_regs s ra rb)
      exact ⟨rfl, _, execCmp_regs (s.withFlags fl hd) ra rb, .inr rfl⟩
    · cases h.symm.trans (execCmp_of_gt_right ra s hb)
      exact ⟨rfl, fl, execCmp_of_gt_right ra (s.withFlags fl hd) hb, .inl ⟨rfl, rfl⟩⟩
  · cases h.symm.trans (execCmp_of_gt_left b s ha)
    exact ⟨rfl, fl, execCmp_of_gt_left b (s.withFlags fl hd) ha, .inl ⟨rfl, rfl⟩⟩

theorem exec_keeps_fl {i : Instr} {s t : State} (hcmp : ∀ a b, i ≠ .cmp a b) (h : exec i s = .next t) :
    t.fl = s.fl := by
  by_cases hhlt : i = .hlt
  · subst hhlt
    cases h.symm.trans (execHlt_eq s)
    rfl
  · exact (exec_keeps_flags hhlt hcmp h).1

theorem exec_keeps_halted {i : Instr} {s t : State} (hhlt : i ≠ .hlt) (h : exec i s = .next t) :
    t.halted = s.halted := by
  by_cases hcmp : ∃ a b, i = .cmp a b
  · obtain ⟨a, b, rfl⟩ := hcmp
    exact (exec_cmp_withFlags s.fl s.halted h).1
  · exact (exec_keeps_flags hhlt (fun a b hi => hcmp ⟨a, b, hi⟩) h).2

/-- Noninterference: with FL and halted replaced, E kept where it is read, every instruction answers the same state but
for FL and halted, each of them replaced as before or written alike in both. -/
theorem exec_flags_noninterference {i : Instr} {s : State} {fl : Byte} (hd : Bool)
    (hE : flagE fl = flagE s.fl ∨ ((∀ a, i ≠ .jeq a) ∧ ∀ a, i ≠ .jne a)) :
    ∃ t fl' hd', exec i s = .next t ∧ exec i (s.withFlags fl hd) = .next (t.withFlags fl' hd') ∧
      ((t.fl = s.fl ∧ fl' = fl) ∨ fl' = t.fl) ∧ ((t.halted = s.halted ∧ hd' = hd) ∨ hd' = t.halted) := by
  obtain ⟨t, ht⟩ := exec_next i s
  by_cases hhlt : i = .hlt
  · subst hhlt
    cases ht.symm.trans (execHlt_eq s)
    exact ⟨_, fl, true, ht, rfl, .inl ⟨rfl, rfl⟩, .inr rfl⟩
  by_cases hcmp : ∃ a b, i = .cmp a b
  · obtain ⟨a, b, rfl⟩ := hcmp
    obtain ⟨hh, fl', hu, hfl⟩ := exec_cmp_withFlags fl hd ht
    exact ⟨t, fl', hd, ht, hu, hfl, .inl ⟨hh, rfl⟩⟩
  · have hcmp : ∀ a b, i ≠ .cmp a b := fun a b hi => hcmp ⟨a, b, hi⟩
    obtain ⟨hfl, hh⟩ := exec_keeps_flags hhlt hcmp ht
    exact ⟨t, fl, hd, ht, exec_withFlags hd hhlt hcmp hE ht, .inl ⟨hfl, rfl⟩, .inl ⟨hh, rfl⟩⟩

theorem compareFlags_cases (va vb : Byte) :
    compareFlags va vb = 0b001#8 ∨ compareFlags va vb = 0b010#8 ∨ compareFlags va vb = 0b100#8 := by
  unfold compareFlags
  split
  · exact .inl rfl
  · split
    · exact .inr (.inl rfl)
    · exact .inr (.inr rfl)

/-- At reset E is 0 and R0 is 0: JEQ R0 goes on to 2 where JNE R0 goes to 0, and with E set it is the other way. -/
theorem jeq_and_jne_read_flagE : ∀ i ∈ [Instr.jeq 0#8, Instr.jne 0#8], ∀ t u,
    exec i State.reset = .next t → exec i { State.reset with fl := 1#8 } = .next u → t.pc ≠ u.pc := by
  intro i hi t u ht hu
  rcases List.mem_pair.mp hi with rfl | rfl
  · cases ht.symm.trans (execJeq_regs State.reset 0)
    cases hu.symm.trans (execJeq_regs { State.reset with fl := 1#8 } 0)
    decide
  · cases ht.symm.trans (execJne_regs State.reset 0)
    cases hu.symm.trans (execJne_regs { State.reset with fl := 1#8 } 0)
    decide

/-! ### Halted at the ports (40_step.md R116; 70_reset_and_hazards.md R255, R257, R258) -/

theorem State.status_halted_iff (s : State) : s.status = .halted ↔ s.halted = true := by
  unfold State.status
  cases s.halted
  · cases s.fault <;> simp
  · simp

theorem State.not_running_of_halted {s : State} (h : s.halted = true) : s.running = false := by
  simp [State.running, h]

theorem step_ne_next_of_not_running {s : State} (h : s.running = false) (t : State) : step s ≠ .next t := by
  intro hs
  have hrun : s.running = true := (stepIn_cases hs).1
  simp [h] at hrun

theorem Block.stepRequest_of_not_running {k : Block} (h : k.state.running = false) : k.stepRequest = k := by
  simp [Block.stepRequest, h]

theorem Block.runRequest_of_not_running (n : Nat) {k : Block} (h : k.state.running = false) :
    Block.runRequest n k = k := by
  cases n with
  | zero => rfl
  | succ n => simp [Block.runRequest, h]

theorem State.load_halted (s : State) (p : List Byte) : (s.load p).halted = s.halted := by
  unfold State.load
  split <;> rfl

theorem Block.load_halted (p : List Byte) (k : Block) : (k.load p).state.halted = k.state.halted := by
  unfold Block.load
  split
  · exact State.load_halted k.state p
  · rfl

/-! ### The obligations -/

/-- Settles O21: the writes are `exec_keeps_halted`, the reads `exec_flags_noninterference` with FL left as it is. -/
theorem onlyHltSetsHalted : Obligations.OnlyHltSetsHalted := by
  refine ⟨rfl, fun s => ⟨_, execHlt_eq s, rfl⟩, fun i s t => exec_keeps_halted, fun n k hk => ?_, fun p k hk => ⟨?_, ?_⟩,
    fun k => rfl, fun i s h => ?_, fun k => State.status_halted_iff k.state⟩
  · have hrun := State.not_running_of_halted hk
    exact ⟨step_ne_next_of_not_running hrun, Block.runRequest_of_not_running n hrun⟩
  · rw [Block.load_halted, hk]
  · rw [Block.stepRequest_of_not_running (State.not_running_of_halted hk), hk]
  · obtain ⟨t, fl', hd', ht, hu, hfl, -⟩ := exec_flags_noninterference (i := i) (s := s) (fl := s.fl) h (.inl rfl)
    have hfl : fl' = t.fl := hfl.elim (fun hkept => hkept.2.trans hkept.1.symm) id
    exact ⟨t, t.withFlags fl' hd', ht, hu, by subst hfl; rfl⟩

/-- Settles O22. -/
theorem onlyCmpWritesFlags : Obligations.OnlyCmpWritesFlags :=
  ⟨fun _ _ _ => exec_keeps_fl, fun ra rb s => ⟨_, execCmp_regs s ra rb, compareFlags_cases _ _⟩⟩

/-- Settles O23: `exec_flags_noninterference` with halted left as it is. -/
theorem onlyJeqAndJneReadFlags : Obligations.OnlyJeqAndJneReadFlags := by
  refine ⟨fun i s v hE => ?_, ⟨State.reset, 1#8, jeq_and_jne_read_flagE⟩, fun k => rfl⟩
  obtain ⟨t, fl', hd', ht, hu, hfl, hh⟩ := exec_flags_noninterference s.halted hE
  have hh : hd' = t.halted := hh.elim (fun hkept => hkept.2.trans hkept.1.symm) id
  exact ⟨t, t.withFlags fl' hd', ht, hu, by subst hh; rfl, hfl.imp id Eq.symm⟩

/-- Settles O1: the reset state's fields, and its memory with no cell listed. -/
theorem resetGivesTheSourcesValues : Obligations.ResetGivesTheSourcesValues :=
  ⟨rfl, rfl, rfl, fun _ _ => rfl⟩

end Sys2Proof.Machine
end

section
/-! PROOFS. The family 30_encoding.md. The decoder on the opcode map's own bytes: a row of the profile is found by its
opcode byte (R86, R87), so the bytes of any instruction of the row are read back with no search of the table. -/

namespace Sys2Proof

/-- No two rows share an opcode byte: the search by a row's byte ends at that row. -/
theorem Op.table_find?_opcode (o : Op) : Op.table.find? (fun r => r.opcode == o.opcode) = some o := by
  cases o <;> rfl

@[simp] theorem Op.ofByte_opcode {ext : Bool} {o : Op} (h : o.inProfile ext = true) :
    Op.ofByte ext o.opcode = .ok o := by
  simp [Op.ofByte, Op.table_find?_opcode, h]

/-- A row's opcode byte decodes to the row's instruction, built from whatever two bytes follow it. -/
@[simp] theorem decode_opcode {ext : Bool} {o : Op} (h : o.inProfile ext = true) (a b : Byte) :
    decode ext o.opcode a b = .ok (Op.build a b o) := by
  simp [decode, h]

/-- Settles O8: the encoder computes the twelve bytes, and each instruction is read back by `decode_opcode` of its row,
whose `build` drops the bytes that PRN and HLT have no place for. -/
theorem workedEncodings : Obligations.WorkedEncodings := by
  have hrow (o : Op) (a b : Byte) : decode Config.aluExt o.opcode a b = .ok (Op.build a b o) := decode_opcode rfl a b
  exact ⟨by decide, hrow .ldi 0 8, hrow .ldi 1 9, hrow .mul 0 1, hrow .prn 0, hrow .hlt⟩

end Sys2Proof
end

section
/-! PROOFS. The family 40_step.md. A row's opcode byte at PC starts the row's instruction (`runsAs_opcode`), which is
most of HLT's rule. For the set-PC class: an execute part outside it has no jump at its end (`exec_inSequence`), so it
commits right after itself; each row of the class has an instruction that jumps to 0, which is after no instruction. -/

namespace Sys2Proof.Machine

/-! ### A row's opcode byte at PC (40_step.md R102, R103) -/

/-- The fetch fault as the statements write it. -/
theorem State.fail_fetch (s : State) : s.fail (.fetch s.pc (max 256 s.pc.toNat)) = atFetchFault s := by
  simp [State.fail, FaultRecord.fetch, atFetchFault]

theorem step_of_gt {s : State} (hrun : s.running = true) (hpc : 253 < s.pc.toNat) :
    step s = .next (atFetchFault s) := by
  rw [step, stepIn_running _ hrun, cycle_of_gt _ hpc, State.fail_fetch]

theorem step_of_decode {s : State} {i : Instr} (hrun : s.running = true) (hpc : s.pc.toNat ≤ 253)
    (hd : decode Config.aluExt (s.byteAt s.pc.toNat) (s.byteAt (s.pc.toNat + 1)) (s.byteAt (s.pc.toNat + 2)) = .ok i) :
    step s = exec i s := by
  rw [step, stepIn_running _ hrun, cycle_of_le _ hpc, hd]

theorem runsAs_opcode (o : Op) : RunsAs o.opcode (fun a b => Op.build a b o) := by
  intro s hrun hop
  refine ⟨fun hpc => step_of_decode hrun hpc ?_, step_of_gt hrun⟩
  rw [hop]
  exact decode_opcode rfl _ _

/-! ### Execute parts that end in sequence (40_step.md R105, R113) -/

/-- Where the part completes, control goes to the next instruction in sequence. -/
def ExecPart.InSequence (p : ExecPart) : Prop := ∀ u n, p = .ok (u, n) → n = .seq

theorem ExecPart.InSequence.ok {u : State} : ExecPart.InSequence (.ok (u, .seq)) := by
  intro _ _ h
  cases h
  rfl

/-- A check or an access before the end of a part does not change where it ends. -/
theorem ExecPart.InSequence.bind {α : Type} {x : Except FaultRecord α} {f : α → ExecPart}
    (hf : ∀ a, (f a).InSequence) : ExecPart.InSequence (x >>= f) := by
  cases x with
  | error e => intro _ _ h; cases h
  | ok a => exact hf a

theorem aluPart_inSequence {o : Op} {f : Byte → Byte → Byte} {a b : Byte} {s : State} :
    (aluPart o f a b s).InSequence :=
  .bind fun _ => .bind fun _ => .ok

/-- No instruction of a row outside the set-PC class has a jump. -/
theorem exec_inSequence {i : Instr} (s : State) (h : i.op.setsPc = .no) :
    ∃ p : ExecPart, exec i s = finish i.op s p ∧ p.InSequence := by
  cases i with
  | ret | call a | jmp a | jeq a | jne a => cases h
  | hlt => exact ⟨_, rfl, .ok⟩
  | prn a | not a | ldi a b => exact ⟨_, rfl, .bind fun _ => .ok⟩
  | cmp a b => exact ⟨_, rfl, .bind fun _ => .bind fun _ => .ok⟩
  | push a | pop a => exact ⟨_, rfl, .bind fun _ => .bind fun _ => .bind fun _ => .ok⟩
  | add a b | sub a b | mul a b | and a b | or a b | xor a b | shl a b | shr a b =>
    exact ⟨_, rfl, aluPart_inSequence⟩

/-- So such an instruction takes a fault or commits with PC right after it. -/
theorem exec_pc_of_setsPc_no {i : Instr} {s t : State} (hi : i.op.setsPc = .no) (hpc : s.pc.toNat ≤ 253)
    (h : exec i s = .next t) (hf : t.fault = none) : t.pc.toNat = s.pc.toNat + i.op.width := by
  obtain ⟨p, hp, hseq⟩ := exec_inSequence s hi
  rw [hp] at h
  rcases finish_cases i.op s p with ⟨e, -, he⟩ | ⟨u, n, hn, he⟩
  · cases h.symm.trans he
    cases hf
  · cases h.symm.trans he
    cases hseq u n hn
    exact seqPc_toNat i.op hpc

/-! ### The set-PC class (40_step.md R113) -/

theorem setsPc_iff_mem (o : Op) : o.setsPc ≠ .no ↔ o ∈ [Op.call, Op.ret, Op.jmp, Op.jeq, Op.jne] := by
  cases o <;> decide

/-- Some instruction of the row commits with PC elsewhere than after it. -/
def CommitsElsewhere (o : Op) : Prop :=
  ∃ (i : Instr) (s t : State), i.op = o ∧ s.pc.toNat ≤ 253 ∧ exec i s = .next t ∧ t.fault = none ∧
    t.pc.toNat ≠ s.pc.toNat + o.width

/-- At reset R0 and the cell at SP are 0, so each row of the class jumps to 0 from there, JEQ once E is set. -/
theorem commitsElsewhere_of_setsPc {o : Op} (h : o.setsPc ≠ .no) : CommitsElsewhere o := by
  cases o with
  | ret => exact ⟨.ret, State.reset, _, rfl, by decide, execRet_eq State.reset (by decide), rfl, by decide⟩
  | call =>
    exact ⟨.call (regByte 0), State.reset, _, rfl, by decide, execCall_regs State.reset 0 (by decide), rfl, by decide⟩
  | jmp => exact ⟨.jmp (regByte 0), State.reset, _, rfl, by decide, execJmp_regs State.reset 0, rfl, by decide⟩
  | jeq =>
    exact ⟨.jeq (regByte 0), State.reset.setFl 1#8, _, rfl, by decide, execJeq_regs _ 0, rfl, by decide⟩
  | jne => exact ⟨.jne (regByte 0), State.reset, _, rfl, by decide, execJne_regs State.reset 0, rfl, by decide⟩
  | hlt | push | pop | prn | not | ldi | add | sub | mul | cmp | and | or | xor | shl | shr => exact absurd rfl h

theorem setsPc_iff_commitsElsewhere (o : Op) : o.setsPc ≠ .no ↔ CommitsElsewhere o := by
  refine ⟨commitsElsewhere_of_setsPc, ?_⟩
  rintro ⟨i, s, t, rfl, hpc, h, hf, hne⟩ hno
  exact hne (exec_pc_of_setsPc_no hno hpc h hf)

theorem execJeq_advances {a : Fin 8} {s t : State} (hE : flagE s.fl = false)
    (h : exec (.jeq (regByte a)) s = .next t) : Advances 2 s t := by
  have hs := execJeq_regs s a
  rw [hE] at hs
  cases h.symm.trans hs
  exact seqPc_toNat .jeq

theorem execJne_advances {a : Fin 8} {s t : State} (hE : flagE s.fl = true)
    (h : exec (.jne (regByte a)) s = .next t) : Advances 2 s t := by
  have hs := execJne_regs s a
  rw [hE] at hs
  cases h.symm.trans hs
  exact seqPc_toNat .jne

/-! ### The obligations -/

/-- Settles O49: the table column by its rows, the commits by `setsPc_iff_commitsElsewhere`. -/
theorem setPcClass : Obligations.SetPcClass :=
  ⟨setsPc_iff_mem, setsPc_iff_commitsElsewhere, fun _ _ _ => execJeq_advances, fun _ _ _ => execJne_advances⟩

/-- Settles O24: HLT's row by `runsAs_opcode`, its effect by `execHlt_eq`; a Halted machine answers no next state. -/
theorem hltHalts : Obligations.HltHalts := by
  refine ⟨⟨runsAs_opcode .hlt, rfl⟩, fun s => ?_⟩
  have hhalted : (s.halt.setPc (seqPc .hlt s.pc)).halted = true := rfl
  exact ⟨_, execHlt_eq s, hhalted, seqPc_toNat .hlt, fun _ => rfl, rfl, fun _ => rfl, rfl, rfl,
    (State.status_halted_iff _).mpr hhalted, step_ne_next_of_not_running (State.not_running_of_halted hhalted)⟩

end Sys2Proof.Machine
end

section
/-! PROOFS. The family 41_data.md. An execute part that begins with the check of a register operand takes the register
fault on a byte over 7, whatever follows the check (`finish_regOperand_of_gt`). -/

namespace Sys2Proof.Machine

/-! ### A register operand over 7 (40_step.md R104; 60_exceptions.md R214) -/

/-- The register fault as the statements write it. -/
theorem State.fail_register (s : State) (op r : Byte) : s.fail (.register s.pc op r) = atRegisterFault op r s := rfl

theorem finish_regOperand_of_gt {o : Op} {s : State} {r : Byte} {f : Fin 8 → ExecPart} (h : 7 < r.toNat) :
    finish o s (regOperand o s r >>= f) = .next (atRegisterFault o.opcode r s) := by
  rw [regOperand_of_gt o s h, except_error_bind, finish_error, State.fail_register]

/-! ### The state LDI commits -/

/-- Writing a register leaves the other registers as they are. -/
theorem sameRegsBut_setReg_setPc (s : State) (i : Fin 8) (v : Byte) (p : PcWord) :
    SameRegsBut i s ((s.setReg i v).setPc p) := by
  intro j hj
  rw [State.setPc_reg, State.reg_setReg, if_neg hj]

/-! ### The obligations -/

/-- Settles O25: LDI's row by `runsAs_opcode`, its fault by `finish_regOperand_of_gt`, its effect by `execLdi_regs`. -/
theorem ldiWritesTheImmediate : Obligations.LdiWritesTheImmediate := by
  refine ⟨runsAs_opcode .ldi, fun _ _ => rfl, fun _ _ _ => finish_regOperand_of_gt, fun ra b s => ?_⟩
  exact ⟨_, execLdi_regs s ra b, State.reg_setReg_same s ra b, sameRegsBut_setReg_setPc s ra b _, seqPc_toNat .ldi,
    rfl, fun _ => rfl, rfl, rfl, rfl⟩

end Sys2Proof.Machine
end

section
/-! PROOFS. The family 42_alu.md. The rule of a two-register ALU instruction follows from its row and from the exact
value of its function on bytes (`aluRule_of_exec_eq`): the datapath is `aluPart` for all of them. -/

namespace Sys2Proof.Machine

/-! ### Two register operands (40_step.md R104) -/

/-- Operand b is checked once operand a names a register. -/
theorem finish_regOperand_of_gt_right {o : Op} {s : State} {a b : Byte} {f : Fin 8 → Fin 8 → ExecPart}
    (ha : a.toNat ≤ 7) (hb : 7 < b.toNat) :
    finish o s (regOperand o s a >>= fun ra => regOperand o s b >>= f ra) = .next (atRegisterFault o.opcode b s) := by
  rw [regOperand_of_le o s ha, except_ok_bind, finish_regOperand_of_gt hb]

/-! ### The rule of a row with the ALU datapath (42_alu.md R140, R141, R157) -/

/-- A row of three bytes whose meaning is the datapath with `g` has the rule of the function that `g` computes. -/
theorem aluRule_of_exec_eq {o : Op} {g : Byte → Byte → Byte} {f : Nat → Nat → Nat} (hwidth : o.width = 3)
    (hencode : ∀ a b, encode (Op.build a b o) = [o.opcode, a, b])
    (hexec : ∀ a b s, exec (Op.build a b o) s = finish o s (aluPart o g a b s))
    (hg : ∀ x y, (g x y).toNat = f x.toNat y.toNat) :
    AluRule o.opcode (fun a b => Op.build a b o) f := by
  refine ⟨⟨runsAs_opcode o, hencode, fun a b s ha => ?_, fun a b s ha hb => ?_⟩, fun ra rb s => ?_⟩
  · rw [hexec]; exact finish_regOperand_of_gt ha
  · rw [hexec]; exact finish_regOperand_of_gt_right ha hb
  · have hnext : exec (Op.build (regByte ra) (regByte rb) o) s =
        .next ((s.setReg ra (g (s.reg ra) (s.reg rb))).setPc (seqPc o s.pc)) := by
      rw [hexec, aluPart_regs, finish_ok, nextPc_seq]
    have hresult : ((s.setReg ra (g (s.reg ra) (s.reg rb))).reg ra).toNat = f (s.reg ra).toNat (s.reg rb).toNat := by
      rw [State.reg_setReg_same, hg]
    exact ⟨_, hnext, hresult, sameRegsBut_setReg_setPc s ra _ _, hwidth ▸ seqPc_toNat o, rfl, fun _ => rfl, rfl, rfl, rfl⟩

/-! ### The obligation -/

/-- Settles O27: MUL's row by `aluRule_of_exec_eq`, its value, the low 8 bits of the exact product, by `aluMul_toNat`. -/
theorem mulWritesTheLowProduct : Obligations.MulWritesTheLowProduct :=
  aluRule_of_exec_eq (o := .mul) rfl (fun _ _ => rfl) (fun _ _ _ => rfl) aluMul_toNat

end Sys2Proof.Machine
end

section
/-! PROOFS. The family 60_exceptions.md. The decoder accepts exactly the profile's opcode bytes (`decode_ok_iff`), and
what runs after it raises no fault but `AddressingFault` (`exec_fault_cases`), so `IllegalInstruction` is the decoder's
alone. -/

namespace Sys2Proof

/-! ### The rows of the opcode map (30_encoding.md R86, R87) -/

theorem Op.mem_table (o : Op) : o ∈ Op.table := List.mem_of_find?_eq_some (Op.table_find?_opcode o)

theorem Op.ofByte_ok {ext : Bool} {op : Byte} {o : Op} (h : Op.ofByte ext op = .ok o) :
    o.inProfile ext = true ∧ o.opcode = op := by
  unfold Op.ofByte at h
  split at h
  · cases h
  · rename_i r hfind
    split at h
    · cases h
      exact ⟨‹_›, by simpa using List.find?_some hfind⟩
    · cases h

end Sys2Proof

namespace Sys2Proof.Machine

/-! ### The bytes the decoder accepts (30_encoding.md R87, R89) -/

/-- The listed bytes are the opcodes of the profile's rows, read off the table in either direction. -/
theorem mem_profileOpcodes_iff (ext : Bool) (op : Byte) :
    op ∈ profileOpcodes ext ↔ ∃ o : Op, o.inProfile ext = true ∧ o.opcode = op := by
  have hlisted : ∀ ext, ∀ op ∈ profileOpcodes ext, ∃ o ∈ Op.table, o.inProfile ext = true ∧ o.opcode = op := by
    decide
  have hrow : ∀ ext, ∀ o ∈ Op.table, o.inProfile ext = true → o.opcode ∈ profileOpcodes ext := by decide
  constructor
  · intro h
    obtain ⟨o, -, ho⟩ := hlisted ext op h
    exact ⟨o, ho⟩
  · rintro ⟨o, ho, rfl⟩
    exact hrow ext o o.mem_table ho

/-- Whether three bytes decode is decided by the first: whether it is in the profile's list. -/
theorem decode_ok_iff (ext : Bool) (op a b : Byte) :
    (∃ i, decode ext op a b = .ok i) ↔ op ∈ profileOpcodes ext := by
  rw [mem_profileOpcodes_iff]
  constructor
  · rintro ⟨i, h⟩
    unfold decode at h
    split at h
    · exact ⟨_, Op.ofByte_ok ‹_›⟩
    · cases h
  · rintro ⟨o, ho, rfl⟩
    exact ⟨_, decode_opcode ho a b⟩

/-! ### What an execute part can raise (60_exceptions.md R214, R216) -/

/-- The computation has a result that meets `P`, or raises an `AddressingFault`. -/
inductive OrAddressingFault {α : Type} (P : α → Prop) : Except FaultRecord α → Prop
  | ok {a : α} (h : P a) : OrAddressingFault P (.ok a)
  | error {e : FaultRecord} (h : e.cause = .addressingFault) : OrAddressingFault P (.error e)

theorem OrAddressingFault.bind {α β : Type} {P : α → Prop} {Q : β → Prop} {x : Except FaultRecord α}
    {f : α → Except FaultRecord β} (hx : OrAddressingFault P x) (hf : ∀ a, P a → OrAddressingFault Q (f a)) :
    OrAddressingFault Q (x >>= f) := by
  cases hx with
  | ok ha => exact hf _ ha
  | error he => exact .error he

theorem regOperand_orAddressingFault (o : Op) (s : State) (r : Byte) :
    OrAddressingFault (fun _ => True) (regOperand o s r) := by
  unfold regOperand
  split
  · exact .ok trivial
  · exact .error rfl

theorem memRead_orAddressingFault (s : State) (op : Option Byte) (addr : Int) :
    OrAddressingFault (fun _ => True) (memRead s op addr) := by
  unfold memRead
  split
  · exact .ok trivial
  · exact .error rfl

/-- A working copy carries the fault record of the state it copies. -/
theorem memWrite_orAddressingFault (s : State) (op : Option Byte) (addr : Int) (v : Byte) :
    OrAddressingFault (fun t => t.fault = s.fault) (memWrite s op addr v) := by
  unfold memWrite
  split
  · exact .ok rfl
  · exact .error rfl

theorem decSp_orAddressingFault (o : Op) (s : State) :
    OrAddressingFault (fun t => t.fault = s.fault) (decSp o s) := by
  rcases decSp_cases o s with ⟨_, h⟩ | ⟨_, h⟩
  · rw [h]; exact .ok (State.setSp_fault ..)
  · rw [h]; exact .error rfl

theorem incSp_orAddressingFault (o : Op) (s : State) :
    OrAddressingFault (fun t => t.fault = s.fault) (incSp o s) := by
  rcases incSp_cases o s with ⟨_, h⟩ | ⟨_, h⟩
  · rw [h]; exact .ok (State.setSp_fault ..)
  · rw [h]; exact .error rfl

theorem aluPart_orAddressingFault (o : Op) (f : Byte → Byte → Byte) (a b : Byte) (s : State) :
    OrAddressingFault (fun q => q.1.fault = s.fault) (aluPart o f a b s) :=
  (regOperand_orAddressingFault o s a).bind fun _ _ => (regOperand_orAddressingFault o s b).bind fun _ _ => .ok rfl

/-- Every instruction's execute part ends in a working copy with the fault record it began with, or in an
`AddressingFault`: its accesses raise nothing else. -/
theorem exec_orAddressingFault (i : Instr) (s : State) :
    ∃ p : ExecPart, exec i s = finish i.op s p ∧ OrAddressingFault (fun q => q.1.fault = s.fault) p := by
  cases i with
  | hlt => exact ⟨.ok (s.halt, .seq), rfl, .ok rfl⟩
  | prn a | not a | ldi a b | jmp a | jeq a | jne a =>
    exact ⟨_, rfl, (regOperand_orAddressingFault ..).bind fun _ _ => .ok rfl⟩
  | cmp a b =>
    exact ⟨_, rfl, (regOperand_orAddressingFault ..).bind fun _ _ =>
      (regOperand_orAddressingFault ..).bind fun _ _ => .ok rfl⟩
  | push a | call a =>
    exact ⟨_, rfl, (regOperand_orAddressingFault ..).bind fun _ _ => (decSp_orAddressingFault ..).bind fun t ht =>
      (memWrite_orAddressingFault t ..).bind fun _ hu => .ok (hu.trans ht)⟩
  | pop a =>
    exact ⟨_, rfl, (regOperand_orAddressingFault ..).bind fun _ _ => (memRead_orAddressingFault ..).bind fun _ _ =>
      (incSp_orAddressingFault ..).bind fun _ ht => .ok (ht.trans (State.setReg_fault ..))⟩
  | ret =>
    exact ⟨_, rfl, (memRead_orAddressingFault ..).bind fun _ _ =>
      (incSp_orAddressingFault ..).bind fun _ ht => .ok ht⟩
  | add a b | sub a b | mul a b | and a b | or a b | xor a b | shl a b | shr a b =>
    exact ⟨_, rfl, aluPart_orAddressingFault ..⟩

/-- The fault record after an instruction is the one before it, or an `AddressingFault`'s. -/
theorem exec_fault_cases {i : Instr} {s t : State} (h : exec i s = .next t) :
    t.fault = s.fault ∨ ∃ e, t = s.fail e ∧ e.cause = .addressingFault := by
  obtain ⟨p, hp, hfault⟩ := exec_orAddressingFault i s
  rw [hp] at h
  rcases finish_cases i.op s p with ⟨e, rfl, he⟩ | ⟨u, n, rfl, he⟩
  · cases h.symm.trans he
    cases hfault with
    | error hcause => exact .inr ⟨e, rfl, hcause⟩
  · cases h.symm.trans he
    cases hfault with
    | ok hkept => exact .inl hkept

/-! ### The step on a legal and on an illegal byte (60_exceptions.md R213) -/

/-- The illegal-instruction fault as the statements write it. -/
theorem State.fail_illegal (s : State) (op : Byte) : s.fail (.illegal s.pc op) = atIllegalFault op s := rfl

theorem stepIn_of_not_mem {ext : Bool} {s : State} (hrun : s.running = true) (hpc : s.pc.toNat ≤ 253)
    (hop : s.byteAt s.pc.toNat ∉ profileOpcodes ext) :
    stepIn ext s = .next (atIllegalFault (s.byteAt s.pc.toNat) s) := by
  rw [stepIn_running ext hrun, cycle_of_le ext hpc]
  split
  · rw [State.fail_illegal]
  · rename_i i hi
    exact absurd ((decode_ok_iff ext _ _ _).mp ⟨i, hi⟩) hop

theorem stepIn_cause_of_mem {ext : Bool} {s t : State} {r : FaultRecord}
    (hop : s.byteAt s.pc.toNat ∈ profileOpcodes ext) (h : stepIn ext s = .next t) (hr : t.fault = some r) :
    r.cause = .addressingFault := by
  obtain ⟨hrun, ⟨-, rfl⟩ | ⟨-, ⟨e, he⟩, -⟩ | ⟨-, i, -, hexec⟩⟩ := stepIn_cases h
  · cases hr
    rfl
  · obtain ⟨i, hi⟩ := (decode_ok_iff ext _ _ _).mpr hop
    cases he.symm.trans hi
  · rcases exec_fault_cases hexec with hkept | ⟨e, rfl, he⟩
    · rw [hkept, ((State.running_iff s).mp hrun).2] at hr
      cases hr
    · cases hr
      exact he

/-! ### The obligation -/

/-- Settles O13: an illegal byte by `stepIn_of_not_mem`, a legal one by `stepIn_cause_of_mem`; the listed bytes are
looked up in the two lists. -/
theorem illegalOpcodeFaults : Obligations.IllegalOpcodeFaults := by
  refine ⟨fun _ _ => stepIn_of_not_mem, fun ext s _ _ hop t r h hr => ?_, rfl, by decide, by decide⟩
  have hcause : r.cause = .addressingFault := stepIn_cause_of_mem hop h hr
  simp [hcause]

end Sys2Proof.Machine
end

section
/-! PROOFS. The family 'other', the decoder. A byte that decodes is the opcode of the row it is built from
(`decode_ok_inv`), the converse of `decode_opcode`, so encoder and decoder are inverse to each other row by row. -/

namespace Sys2Proof

/-! ### The decoder, inverted (30_encoding.md R86, R87) -/

/-- The bytes that decode are a row's opcode byte and the two bytes the row's instruction is built from. -/
theorem decode_ok_inv {ext : Bool} {op a b : Byte} {i : Instr} (h : decode ext op a b = .ok i) :
    ∃ o : Op, o.inProfile ext = true ∧ o.opcode = op ∧ i = Op.build a b o := by
  unfold decode at h
  split at h
  · rename_i o ho
    cases h
    exact ⟨o, (Op.ofByte_ok ho).1, (Op.ofByte_ok ho).2, rfl⟩
  · cases h

@[simp] theorem Op.op_build (a b : Byte) (o : Op) : (Op.build a b o).op = o := by
  cases o <;> rfl

theorem Op.opcode_inj {o o' : Op} : o.opcode = o'.opcode ↔ o = o' := by
  refine ⟨fun h => ?_, congrArg _⟩
  have hfind := Op.table_find?_opcode o
  rw [h, Op.table_find?_opcode] at hfind
  exact (Option.some.inj hfind).symm

theorem decode_opcode_eq {ext : Bool} {op a b : Byte} {i : Instr} (h : decode ext op a b = .ok i) :
    i.op.opcode = op := by
  obtain ⟨o, -, rfl, rfl⟩ := decode_ok_inv h
  rw [Op.op_build]

/-- An instruction is of the profile when its row is. -/
theorem Instr.inProfile_eq (ext : Bool) (i : Instr) : i.inProfile ext = i.op.inProfile ext := by
  cases ext <;> cases i <;> rfl

/-- The encoding of a row's instruction keeps as many of the three bytes as the row is wide. -/
theorem encode_build (a b : Byte) (o : Op) : encode (Op.build a b o) = [o.opcode, a, b].take o.width := by
  cases o <;> rfl

/-! ### The obligations -/

/-- Settles O6: the bytes after the opcode are the operands, and then, where the format has fewer than two, the bytes
that follow, which the row's `build` drops. -/
theorem decodeOfEncodeIsTheInstruction : Obligations.DecodeOfEncodeIsTheInstruction := by
  intro ext i p q rest hi
  rw [Instr.inProfile_eq] at hi
  cases i with
  | hlt | ret => exact decode_opcode hi p q
  | push a | pop a | prn a | call a | jmp a | jeq a | jne a | not a => exact decode_opcode hi a p
  | ldi a b | add a b | sub a b | mul a b | cmp a b | and a b | or a b | xor a b | shl a b | shr a b =>
    exact decode_opcode hi a b

/-- Settles O7: by `decode_ok_inv` the instruction is built from a row of the profile. -/
theorem encodeOfDecodeIsTheBytes : Obligations.EncodeOfDecodeIsTheBytes := by
  intro ext op a b i h
  obtain ⟨o, ho, rfl, rfl⟩ := decode_ok_inv h
  rw [Instr.inProfile_eq, Op.op_build]
  exact ⟨ho, encode_build a b o⟩

/-- Settles O9: each byte is its row's opcode, read back by `decode_opcode`. -/
theorem opcodeMapRowByRow : Obligations.OpcodeMapRowByRow := by
  intro a b
  have hrow (o : Op) : decode Config.aluExt o.opcode a b = .ok (Op.build a b o) := decode_opcode rfl a b
  exact ⟨hrow .hlt, hrow .ret, hrow .push, hrow .pop, hrow .prn, hrow .call, hrow .jmp, hrow .jeq, hrow .jne, hrow .not,
    hrow .ldi, hrow .add, hrow .sub, hrow .mul, hrow .cmp, hrow .and, hrow .or, hrow .xor, hrow .shl, hrow .shr⟩

/-- Settles O10: by `decode_ok_iff` only the listed bytes decode; the wider-LS8 bytes are looked up in the two lists. -/
theorem bytesOutsideTheMapAreRejected : Obligations.BytesOutsideTheMapAreRejected := by
  refine ⟨fun ext op a b hop => ?_, by decide⟩
  cases h : decode ext op a b with
  | error e => exact ⟨e, rfl⟩
  | ok i => exact absurd ((Machine.decode_ok_iff ext op a b).mp ⟨i, h⟩) hop

end Sys2Proof
end

section
/-! PROOFS. The family 'other', what an instruction and a step can do. An instruction faults on a register operand
(`exec_of_firstOver`), faults at a bound of SP (`StackOut`), or commits one state (`Commits`); these are all its cases
(`exec_cases`), and with the fetch and the decoder they make all the cases of a step (`step_cases`). -/

namespace Sys2Proof.Machine

/-! ### The first register operand over 7 (40_step.md R104; 60_exceptions.md R214) -/

/-- The first register operand that names no register, as the statements search for it. -/
def firstOver (rs : List Byte) : Option Byte := rs.find? fun x => decide (8 ≤ x.toNat)

theorem regByte_or_over (a : Byte) : (∃ r : Fin 8, a = regByte r) ∨ 7 < a.toNat :=
  (regOperand_cases .hlt State.reset a).imp (fun ⟨_, i, hi, _⟩ => ⟨i, hi⟩) (fun ⟨h, _⟩ => h)

theorem regByte_le (r : Fin 8) : (regByte r).toNat ≤ 7 := by
  rw [regByte_toNat]
  omega

@[simp] theorem firstOver_nil : firstOver [] = none := rfl

@[simp] theorem firstOver_regByte (r : Fin 8) (rs : List Byte) : firstOver (regByte r :: rs) = firstOver rs :=
  List.find?_cons_of_neg (by simp)

theorem firstOver_over {a : Byte} (h : 7 < a.toNat) (rs : List Byte) : firstOver (a :: rs) = some a :=
  List.find?_cons_of_pos (decide_eq_true h)

/-- In range is: no operand over 7. -/
theorem Instr.regsInRange_iff (i : Instr) : i.regsInRange = true ↔ firstOver i.regOperands = none := by
  simp [Instr.regsInRange, firstOver, Nat.lt_succ_iff]

theorem finish_of_firstOver_single {o : Op} {s : State} {a r : Byte} {f : Fin 8 → ExecPart}
    (h : firstOver [a] = some r) : finish o s (regOperand o s a >>= f) = .next (atRegisterFault o.opcode r s) := by
  rcases regByte_or_over a with ⟨ra, rfl⟩ | ha
  · simp at h
  · cases h.symm.trans (firstOver_over ha [])
    exact finish_regOperand_of_gt ha

theorem finish_of_firstOver_pair {o : Op} {s : State} {a b r : Byte} {f : Fin 8 → Fin 8 → ExecPart}
    (h : firstOver [a, b] = some r) :
    finish o s (regOperand o s a >>= fun ra => regOperand o s b >>= f ra) = .next (atRegisterFault o.opcode r s) := by
  rcases regByte_or_over a with ⟨ra, rfl⟩ | ha
  · rw [regOperand_regByte, except_ok_bind]
    exact finish_of_firstOver_single (by simpa using h)
  · cases h.symm.trans (firstOver_over ha [b])
    exact finish_regOperand_of_gt ha

/-- Every instruction checks its register operands first, a before b, whatever it does with them. -/
theorem exec_of_firstOver {i : Instr} {r : Byte} (s : State) (h : firstOver i.regOperands = some r) :
    exec i s = .next (atRegisterFault i.op.opcode r s) := by
  cases i with
  | hlt | ret => cases h
  | push a | pop a | prn a | call a | jmp a | jeq a | jne a | not a | ldi a b => exact finish_of_firstOver_single h
  | add a b | sub a b | mul a b | cmp a b | and a b | or a b | xor a b | shl a b | shr a b =>
    exact finish_of_firstOver_pair h

/-! ### The bounds of SP (43_stack.md R178) -/

/-- The instruction takes SP out of 0..255 in this state, to the index `n`; for POP R7 the loaded value counts. -/
inductive StackOut (s : State) : Instr → Int → Prop
  | push (ra : Fin 8) (h : s.sp.toNat = 0) : StackOut s (.push (regByte ra)) (-1)
  | call (ra : Fin 8) (h : s.sp.toNat = 0) : StackOut s (.call (regByte ra)) (-1)
  | pop (ra : Fin 8) (h : (s.setReg ra (s.byteAt s.sp.toNat)).sp.toNat = 255) : StackOut s (.pop (regByte ra)) 256
  | ret (h : s.sp.toNat = 255) : StackOut s .ret 256

/-- The stack fault as the statements write it. -/
theorem State.fail_stack (s : State) (op : Byte) (n : Int) : s.fail (.stack s.pc op n) = atStackFault op n s := rfl

theorem exec_of_stackOut {i : Instr} {s : State} {n : Int} (h : StackOut s i n) :
    exec i s = .next (atStackFault i.op.opcode n s) := by
  cases h with
  | push ra h => exact execPush_zero s ra h
  | call ra h => exact execCall_zero s ra h
  | pop ra h => exact execPop_top s ra h
  | ret h => exact execRet_top s h

theorem StackOut.index {i : Instr} {s : State} {n : Int} (h : StackOut s i n) : n = -1 ∨ n = 256 := by
  cases h <;> simp

/-! ### The states that instructions commit (40_step.md R105 to R107) -/

/-- The function of a row with the ALU datapath (42_alu.md R141). -/
def aluFun : Op → Option (Byte → Byte → Byte)
  | .add => some aluAdd
  | .sub => some aluSub
  | .mul => some aluMul
  | .and => some aluAnd
  | .or => some aluOr
  | .xor => some aluXor
  | .shl => some aluShl
  | .shr => some aluShr
  | .hlt | .ret | .push | .pop | .prn | .call | .jmp | .jeq | .jne | .not | .ldi | .cmp => none

theorem exec_alu {o : Op} {f : Byte → Byte → Byte} (h : aluFun o = some f) (a b : Byte) (s : State) :
    exec (Op.build a b o) s = finish o s (aluPart o f a b s) := by
  cases o <;> cases h <;> rfl

/-- One more byte on the stack: SP decremented, and the byte stored where it then points. -/
def State.pushed (s : State) (v : Byte) : State :=
  { s.setSp (s.sp - 1#8) with mem := s.mem.write (s.sp - 1#8).toNat v }

/-- The instruction completes in this state, and commits the other one. -/
inductive Commits (s : State) : Instr → State → Prop
  | hlt : Commits s .hlt (s.halt.setPc (seqPc .hlt s.pc))
  | ldi (ra : Fin 8) (b : Byte) : Commits s (.ldi (regByte ra) b) ((s.setReg ra b).setPc (seqPc .ldi s.pc))
  | prn (ra : Fin 8) : Commits s (.prn (regByte ra)) ((s.emit (s.reg ra)).setPc (seqPc .prn s.pc))
  | not (ra : Fin 8) :
    Commits s (.not (regByte ra)) ((s.setReg ra (aluNot (s.reg ra))).setPc (seqPc .not s.pc))
  | alu {o : Op} {f : Byte → Byte → Byte} (hf : aluFun o = some f) (ra rb : Fin 8) :
    Commits s (Op.build (regByte ra) (regByte rb) o) ((s.setReg ra (f (s.reg ra) (s.reg rb))).setPc (seqPc o s.pc))
  | cmp (ra rb : Fin 8) :
    Commits s (.cmp (regByte ra) (regByte rb))
      ((s.setFl (compareFlags (s.reg ra) (s.reg rb))).setPc (seqPc .cmp s.pc))
  | jmp (ra : Fin 8) : Commits s (.jmp (regByte ra)) (s.setPc ((s.reg ra).setWidth 9))
  | jeq (ra : Fin 8) :
    Commits s (.jeq (regByte ra)) (s.setPc (if flagE s.fl then (s.reg ra).setWidth 9 else seqPc .jeq s.pc))
  | jne (ra : Fin 8) :
    Commits s (.jne (regByte ra)) (s.setPc (if flagE s.fl then seqPc .jne s.pc else (s.reg ra).setWidth 9))
  | push (ra : Fin 8) (h : 0 < s.sp.toNat) :
    Commits s (.push (regByte ra)) ((s.pushed ((s.setSp (s.sp - 1#8)).reg ra)).setPc (seqPc .push s.pc))
  | call (ra : Fin 8) (h : 0 < s.sp.toNat) :
    Commits s (.call (regByte ra))
      ((s.pushed (returnAddress s.pc)).setPc (((s.setSp (s.sp - 1#8)).reg ra).setWidth 9))
  | pop (ra : Fin 8) (h : (s.setReg ra (s.byteAt s.sp.toNat)).sp.toNat < 255) :
    Commits s (.pop (regByte ra))
      (((s.setReg ra (s.byteAt s.sp.toNat)).setSp ((s.setReg ra (s.byteAt s.sp.toNat)).sp + 1#8)).setPc
        (seqPc .pop s.pc))
  | ret (h : s.sp.toNat < 255) :
    Commits s .ret ((s.setSp (s.sp + 1#8)).setPc ((s.byteAt s.sp.toNat).setWidth 9))

theorem exec_of_commits {i : Instr} {s t : State} (h : Commits s i t) : exec i s = .next t := by
  cases h with
  | hlt => exact execHlt_eq s
  | ldi ra b => exact execLdi_regs s ra b
  | prn ra => exact execPrn_regs s ra
  | not ra => exact execNot_regs s ra
  | alu hf ra rb => rw [exec_alu hf, aluPart_regs, finish_ok, nextPc_seq]
  | cmp ra rb => exact execCmp_regs s ra rb
  | jmp ra => exact execJmp_regs s ra
  | jeq ra => exact execJeq_regs s ra
  | jne ra => exact execJne_regs s ra
  | push ra h => exact execPush_regs s ra h
  | call ra h => exact execCall_regs s ra h
  | pop ra h => exact execPop_regs s ra h
  | ret h => exact execRet_eq s h

/-- With no operand over 7, an instruction leaves SP's range or commits. -/
def StackOutOrCommits (s : State) (i : Instr) : Prop := (∃ n, StackOut s i n) ∨ ∃ t, Commits s i t

theorem stackOutOrCommits_push (s : State) (ra : Fin 8) : StackOutOrCommits s (.push (regByte ra)) :=
  (Nat.eq_zero_or_pos s.sp.toNat).imp (fun h => ⟨_, .push ra h⟩) (fun h => ⟨_, .push ra h⟩)

theorem stackOutOrCommits_call (s : State) (ra : Fin 8) : StackOutOrCommits s (.call (regByte ra)) :=
  (Nat.eq_zero_or_pos s.sp.toNat).imp (fun h => ⟨_, .call ra h⟩) (fun h => ⟨_, .call ra h⟩)

theorem eq_255_or_lt (b : Byte) : b.toNat = 255 ∨ b.toNat < 255 := by
  omega

theorem stackOutOrCommits_pop (s : State) (ra : Fin 8) : StackOutOrCommits s (.pop (regByte ra)) :=
  (eq_255_or_lt _).imp (fun h => ⟨_, .pop ra h⟩) (fun h => ⟨_, .pop ra h⟩)

theorem stackOutOrCommits_ret (s : State) : StackOutOrCommits s .ret :=
  (eq_255_or_lt _).imp (fun h => ⟨_, .ret h⟩) (fun h => ⟨_, .ret h⟩)

/-- A register operand is over 7, or the instruction is the one on a register. -/
theorem over_or_single {s : State} (mk : Byte → Instr) {a : Byte} (hregs : (mk a).regOperands = [a])
    (h : ∀ ra, StackOutOrCommits s (mk (regByte ra))) :
    (∃ r, firstOver (mk a).regOperands = some r) ∨ StackOutOrCommits s (mk a) := by
  rcases regByte_or_over a with ⟨ra, rfl⟩ | ha
  · exact .inr (h ra)
  · exact .inl ⟨a, by rw [hregs, firstOver_over ha]⟩

theorem over_or_pair {s : State} (mk : Byte → Byte → Instr) {a b : Byte}
    (hregs : (mk a b).regOperands = [a, b]) (h : ∀ ra rb, StackOutOrCommits s (mk (regByte ra) (regByte rb))) :
    (∃ r, firstOver (mk a b).regOperands = some r) ∨ StackOutOrCommits s (mk a b) := by
  rcases regByte_or_over a with ⟨ra, rfl⟩ | ha
  · rcases regByte_or_over b with ⟨rb, rfl⟩ | hb
    · exact .inr (h ra rb)
    · exact .inl ⟨b, by rw [hregs, firstOver_regByte, firstOver_over hb]⟩
  · exact .inl ⟨a, by rw [hregs, firstOver_over ha]⟩

theorem over_or_alu {s : State} {o : Op} {f : Byte → Byte → Byte} {a b : Byte} (hf : aluFun o = some f)
    (hregs : (Op.build a b o).regOperands = [a, b]) :
    (∃ r, firstOver (Op.build a b o).regOperands = some r) ∨ StackOutOrCommits s (Op.build a b o) :=
  over_or_pair (Op.build · · o) hregs fun ra rb => .inr ⟨_, .alu hf ra rb⟩

/-- Everything an instruction can do, in any state: `exec_of_firstOver`, `exec_of_stackOut` and `exec_of_commits` say
what `exec` answers in each case. -/
theorem exec_cases (i : Instr) (s : State) : (∃ r, firstOver i.regOperands = some r) ∨ StackOutOrCommits s i := by
  cases i with
  | hlt => exact .inr (.inr ⟨_, .hlt⟩)
  | ret => exact .inr (stackOutOrCommits_ret s)
  | push a => exact over_or_single .push rfl (stackOutOrCommits_push s)
  | pop a => exact over_or_single .pop rfl (stackOutOrCommits_pop s)
  | call a => exact over_or_single .call rfl (stackOutOrCommits_call s)
  | prn a => exact over_or_single .prn rfl fun ra => .inr ⟨_, .prn ra⟩
  | jmp a => exact over_or_single .jmp rfl fun ra => .inr ⟨_, .jmp ra⟩
  | jeq a => exact over_or_single .jeq rfl fun ra => .inr ⟨_, .jeq ra⟩
  | jne a => exact over_or_single .jne rfl fun ra => .inr ⟨_, .jne ra⟩
  | not a => exact over_or_single .not rfl fun ra => .inr ⟨_, .not ra⟩
  | ldi a b => exact over_or_single (.ldi · b) rfl fun ra => .inr ⟨_, .ldi ra b⟩
  | cmp a b => exact over_or_pair .cmp rfl fun ra rb => .inr ⟨_, .cmp ra rb⟩
  | add a b => exact over_or_alu (o := .add) rfl rfl
  | sub a b => exact over_or_alu (o := .sub) rfl rfl
  | mul a b => exact over_or_alu (o := .mul) rfl rfl
  | and a b => exact over_or_alu (o := .and) rfl rfl
  | or a b => exact over_or_alu (o := .or) rfl rfl
  | xor a b => exact over_or_alu (o := .xor) rfl rfl
  | shl a b => exact over_or_alu (o := .shl) rfl rfl
  | shr a b => exact over_or_alu (o := .shr) rfl rfl

/-- The same of an instruction that answered the state `t`. -/
theorem exec_next_cases {i : Instr} {s t : State} (h : exec i s = .next t) :
    (∃ r, firstOver i.regOperands = some r ∧ t = atRegisterFault i.op.opcode r s) ∨
    (∃ n, StackOut s i n ∧ t = atStackFault i.op.opcode n s) ∨ Commits s i t := by
  rcases exec_cases i s with ⟨r, hr⟩ | ⟨n, hn⟩ | ⟨u, hu⟩
  · cases h.symm.trans (exec_of_firstOver s hr)
    exact .inl ⟨r, hr, rfl⟩
  · cases h.symm.trans (exec_of_stackOut hn)
    exact .inr (.inl ⟨n, hn, rfl⟩)
  · cases h.symm.trans (exec_of_commits hu)
    exact .inr (.inr hu)

/-! ### What every committed state keeps -/

theorem Commits.fault_eq {i : Instr} {s t : State} (h : Commits s i t) : t.fault = s.fault := by
  cases h <;> rfl

/-- PC after a commit: the next instruction in sequence, or a byte. -/
theorem Commits.pc_cases {i : Instr} {s t : State} (h : Commits s i t) :
    t.pc = seqPc i.op s.pc ∨ ∃ target : Byte, t.pc = target.setWidth 9 := by
  cases h with
  | hlt | ldi | prn | not | cmp | push | pop => exact .inl rfl
  | alu hf ra rb => exact .inl (by rw [Op.op_build]; rfl)
  | jmp | call | ret => exact .inr ⟨_, rfl⟩
  | jeq ra =>
    cases hE : flagE s.fl
    · exact .inl (by simp; rfl)
    · exact .inr ⟨s.reg ra, by simp⟩
  | jne ra =>
    cases hE : flagE s.fl
    · exact .inr ⟨s.reg ra, by simp⟩
    · exact .inl (by simp; rfl)

/-- Only CMP writes FL, and only one of its three values. -/
theorem Commits.fl_cases {i : Instr} {s t : State} (h : Commits s i t) :
    t.fl = s.fl ∨ ∃ va vb, t.fl = compareFlags va vb := by
  cases h with
  | cmp ra rb => exact .inr ⟨_, _, rfl⟩
  | hlt | ldi | prn | not | alu | jmp | jeq | jne | push | call | pop | ret => exact .inl rfl

/-- A row with the ALU datapath reads its operand bytes as registers, writes the first, and uses no port. -/
theorem aluFun_row {o : Op} {f : Byte → Byte → Byte} (hf : aluFun o = some f) (a b : Byte) (s t : State) :
    execEvents (Op.build a b o) s t = [] ∧ readItems (Op.build a b o) s = [.reg a, .reg b] ∧
      writeItems (Op.build a b o) = [.reg a] := by
  cases o <;> cases hf <;> exact ⟨rfl, rfl, rfl⟩

theorem operandValue_regByte (o : Op) (s : State) (r : Fin 8) : operandValue o s (regByte r) = s.reg r := by
  simp [operandValue]

/-- Memory after a commit is as before, and nothing was written; or it has one cell stored, by PUSH or CALL, just below
SP, and that is the step's one transaction after the fetch. -/
theorem Commits.mem_cases {i : Instr} {s t : State} (h : Commits s i t) :
    (t.mem = s.mem ∧ ∀ n v, .memWrite n v ∉ execEvents i s t) ∨
    ((i.op = .push ∨ i.op = .call) ∧ 0 < s.sp.toNat ∧
      ∃ v, t.mem = s.mem.write (s.sp - 1#8).toNat v ∧ execEvents i s t = [.memWrite (s.sp - 1#8).toNat v]) := by
  cases h with
  | push ra h =>
    have hsp : (s.pushed ((s.setSp (s.sp - 1#8)).reg ra)).sp = s.sp - 1#8 := State.sp_setSp ..
    refine .inr ⟨.inl rfl, h, _, rfl, ?_⟩
    rw [execEvents, operandValue_regByte, State.setPc_sp, hsp]
    rfl
  | call ra h =>
    have hsp : (s.pushed (returnAddress s.pc)).sp = s.sp - 1#8 := State.sp_setSp ..
    refine .inr ⟨.inr rfl, h, _, rfl, ?_⟩
    rw [execEvents, State.setPc_sp, hsp]
  | alu hf ra rb => exact .inl ⟨rfl, by simp [(aluFun_row hf ..).1]⟩
  | hlt | ldi | prn | not | cmp | jmp | jeq | jne | pop | ret => exact .inl ⟨rfl, by simp [execEvents]⟩

/-- What a commit appends to `out` is what it emits: one value by PRN, nothing by any other instruction. -/
theorem Commits.out_cases {i : Instr} {s t : State} (h : Commits s i t) :
    (i.op = .prn ∧ ∃ v, t.out = s.out ++ [v] ∧ emitted (execEvents i s t) = [v]) ∨
    (i.op ≠ .prn ∧ t.out = s.out ∧ emitted (execEvents i s t) = []) := by
  cases h with
  | prn ra => exact .inl ⟨rfl, s.reg ra, rfl, by rw [execEvents, operandValue_regByte]; rfl⟩
  | alu hf ra rb =>
    refine .inr ⟨?_, rfl, by rw [(aluFun_row hf ..).1]; rfl⟩
    rw [Op.op_build]
    rintro rfl
    cases hf
  | hlt | ldi | not | cmp | jmp | jeq | jne | push | call | pop | ret => exact .inr ⟨nofun, rfl, rfl⟩

/-! ### Everything a step can do (40_step.md R102 to R108) -/

/-- A step of the state, when Running, takes this fault. -/
inductive TakesFault (s : State) : FaultRecord → Prop
  | fetch (hpc : 253 < s.pc.toNat) : TakesFault s (.fetch s.pc (max 256 s.pc.toNat))
  | illegal {e : DecodeReject} (hpc : s.pc.toNat ≤ 253)
    (hd : decode Config.aluExt (s.byteAt s.pc.toNat) (s.byteAt (s.pc.toNat + 1)) (s.byteAt (s.pc.toNat + 2)) =
      .error e) :
    TakesFault s (.illegal s.pc (s.byteAt s.pc.toNat))
  | register {i : Instr} {r : Byte} (hi : DecodesAtPc s i) (hr : firstOver i.regOperands = some r) :
    TakesFault s (.register s.pc i.op.opcode r)
  | stack {i : Instr} {n : Int} (hi : DecodesAtPc s i) (hn : StackOut s i n) :
    TakesFault s (.stack s.pc i.op.opcode n)

theorem step_of_decodesAtPc {s : State} {i : Instr} (hrun : s.running = true) (hi : DecodesAtPc s i) :
    step s = exec i s :=
  step_of_decode hrun hi.1 hi.2

theorem step_of_reject {s : State} {e : DecodeReject} (hrun : s.running = true) (hpc : s.pc.toNat ≤ 253)
    (hd : decode Config.aluExt (s.byteAt s.pc.toNat) (s.byteAt (s.pc.toNat + 1)) (s.byteAt (s.pc.toNat + 2)) =
      .error e) :
    step s = .next (atIllegalFault (s.byteAt s.pc.toNat) s) := by
  rw [step, stepIn_running _ hrun, cycle_of_le _ hpc, hd, State.fail_illegal]

theorem step_of_takesFault {s : State} {e : FaultRecord} (hrun : s.running = true) (h : TakesFault s e) :
    step s = .next (s.fail e) := by
  cases h with
  | fetch hpc => rw [step_of_gt hrun hpc, State.fail_fetch]
  | illegal hpc hd => exact step_of_reject hrun hpc hd
  | register hi hr => rw [step_of_decodesAtPc hrun hi, exec_of_firstOver s hr, State.fail_register]
  | stack hi hn => rw [step_of_decodesAtPc hrun hi, exec_of_stackOut hn, State.fail_stack]

theorem step_of_commits {s t : State} {i : Instr} (hrun : s.running = true) (hi : DecodesAtPc s i)
    (h : Commits s i t) : step s = .next t := by
  rw [step_of_decodesAtPc hrun hi, exec_of_commits h]

/-- A Running state faults or commits. -/
theorem takesFault_or_commits (s : State) :
    (∃ e, TakesFault s e) ∨ ∃ i t, DecodesAtPc s i ∧ Commits s i t := by
  by_cases hpc : s.pc.toNat ≤ 253
  · cases hd : decode Config.aluExt (s.byteAt s.pc.toNat) (s.byteAt (s.pc.toNat + 1)) (s.byteAt (s.pc.toNat + 2)) with
    | error e => exact .inl ⟨_, .illegal hpc hd⟩
    | ok i =>
      rcases exec_cases i s with ⟨r, hr⟩ | ⟨n, hn⟩ | ⟨t, ht⟩
      · exact .inl ⟨_, .register ⟨hpc, hd⟩ hr⟩
      · exact .inl ⟨_, .stack ⟨hpc, hd⟩ hn⟩
      · exact .inr ⟨i, t, ⟨hpc, hd⟩, ht⟩
  · exact .inl ⟨_, .fetch (Nat.lt_of_not_le hpc)⟩

/-- Everything a step that answers a next state can be: Running before it, and then a fault taken, or the instruction at
PC committed. -/
theorem step_cases {s t : State} (h : step s = .next t) :
    s.running = true ∧ ((∃ e, TakesFault s e ∧ t = s.fail e) ∨ ∃ i, DecodesAtPc s i ∧ Commits s i t) := by
  have hrun : s.running = true := (stepIn_cases h).1
  refine ⟨hrun, ?_⟩
  rcases takesFault_or_commits s with ⟨e, he⟩ | ⟨i, u, hi, hu⟩
  · cases h.symm.trans (step_of_takesFault hrun he)
    exact .inl ⟨e, he, rfl⟩
  · cases h.symm.trans (step_of_commits hrun hi hu)
    exact .inr ⟨i, hi, hu⟩

end Sys2Proof.Machine
end

section
/-! PROOFS. The family 'other', the cases of a step put to use: the order of the faults and their precision, the
machine's transitions, and the invariant, which a fault and a commit each keep. -/

namespace Sys2Proof.Machine

/-! ### Faults (60_exceptions.md R211 to R220) -/

theorem firstOver_some {rs : List Byte} {r : Byte} (h : firstOver rs = some r) : 8 ≤ r.toNat := by
  simpa using List.find?_some h

/-- Every fault a step takes from PC up to 256 is one the block can raise. -/
theorem TakesFault.lawful {s : State} {e : FaultRecord} (h : TakesFault s e) (hpc : s.pc.toNat ≤ 256) :
    FaultRecordLawful e := by
  cases h with
  | fetch h253 =>
    have hmax : max 256 s.pc.toNat = 256 := Nat.max_eq_left hpc
    exact ⟨h253, hpc, rfl, by rw [hmax]; rfl⟩
  | illegal h253 _ => exact ⟨h253, ⟨_, rfl⟩, rfl⟩
  | register hi hr => exact ⟨hi.1, ⟨_, rfl⟩, _, firstOver_some hr, rfl⟩
  | stack hi hn => exact ⟨hi.1, ⟨_, rfl⟩, hn.index.imp (congrArg some) (congrArg some)⟩

/-- After a step the fault record, if any, is the one it took, and nothing else changed. -/
theorem step_fault {s t : State} {r : FaultRecord} (h : step s = .next t) (hr : t.fault = some r) : t = s.fail r := by
  obtain ⟨hrun, ⟨e, -, rfl⟩ | ⟨i, -, hc⟩⟩ := step_cases h
  · cases hr
    rfl
  · rw [hc.fault_eq, ((State.running_iff s).mp hrun).2] at hr
    cases hr

/-- Settles O14, by `exec_of_firstOver`; the cause's code is its definition's. -/
theorem registerOperandOverSevenFaults : Obligations.RegisterOperandOverSevenFaults :=
  ⟨fun _ s _ => exec_of_firstOver s, rfl⟩

/-- Settles O15: each clause is one case of `StackOut`. -/
theorem stackBoundsFault : Obligations.StackBoundsFault := by
  refine ⟨fun r s h => ⟨exec_of_stackOut (.push r h), exec_of_stackOut (.call r h)⟩, fun r s hr h => ?_, fun s h => ?_,
    fun s h => exec_of_stackOut (.ret h)⟩
  · exact exec_of_stackOut (.pop r (by rw [State.sp_setReg, if_neg hr]; exact h))
  · exact exec_of_stackOut (.pop 7 (by rw [State.sp_setReg, if_pos rfl]; exact h))

/-- Settles O16: the order by the cases of the step in their order; past the operands, `exec_next_cases` leaves the
stack fault. -/
theorem faultOrder : Obligations.FaultOrder := by
  refine ⟨fun s hrun => ?_, fun i s t hi h => ?_⟩
  · split
    · exact step_of_gt hrun ‹_›
    · have hpc : s.pc.toNat ≤ 253 := Nat.le_of_not_lt ‹_›
      split
      · exact step_of_reject hrun hpc ‹_›
      · rename_i i hd
        rw [step_of_decode hrun hpc hd]
        split
        · rw [← decode_opcode_eq hd]
          exact exec_of_firstOver s ‹_›
        · rfl
  · rw [Instr.regsInRange_iff] at hi
    rcases exec_next_cases h with ⟨r, hr, -⟩ | ⟨n, hn, rfl⟩ | hc
    · cases hi.symm.trans hr
    · exact .inr ⟨n, hn.index, rfl⟩
    · exact .inl hc.fault_eq

/-- Settles O17, by `step_fault`. -/
theorem faultsArePrecise : Obligations.FaultsArePrecise := fun _ _ _ => step_fault

/-- Settles O12, by `step_of_gt`; the index is 256 where PC is at most 256. -/
theorem fetchPastTheEndFaults : Obligations.FetchPastTheEndFaults := by
  intro s hrun hpc
  refine ⟨step_of_gt hrun hpc, fun h256 => ⟨_, _, step_of_gt hrun hpc, rfl, ?_⟩⟩
  have hmax : max 256 (s.pc.toNat : Int) = 256 := by omega
  rw [hmax]

/-! ### Which states a step leads to (40_step.md R101, R115 to R120) -/

/-- Settles O11, by `step_of_decode`. -/
theorem stepRunsTheDecodedInstruction : Obligations.StepRunsTheDecodedInstruction := fun _ _ => step_of_decode

/-- Settles O18: both cases of a Running state answer a next state. -/
theorem everyRunningStepCompletes : Obligations.EveryRunningStepCompletes := by
  intro s hrun
  rcases takesFault_or_commits s with ⟨e, he⟩ | ⟨i, t, hi, ht⟩
  · exact ⟨_, step_of_takesFault hrun he⟩
  · exact ⟨t, step_of_commits hrun hi ht⟩

theorem State.stepRequest_of_not_running {s : State} (h : s.running = false) : s.stepRequest = s := by
  unfold State.stepRequest
  split
  · exact absurd ‹_› (step_ne_next_of_not_running h _)
  · rfl
  · rfl

/-- Settles O19: `step` answers a stop, and both ports leave the state as it is. -/
theorem noStepUnlessRunning : Obligations.NoStepUnlessRunning := fun _ h =>
  ⟨step_ne_next_of_not_running h, State.stepRequest_of_not_running h, fun _ => Block.stepRequest_of_not_running h⟩

theorem State.status_faulted_iff {s : State} (h : s.halted = true → s.fault = none) (r : FaultRecord) :
    s.status = .faulted r ↔ s.fault = some r := by
  unfold State.status
  cases hh : s.halted
  · cases s.fault <;> simp
  · simp [h hh]

/-- A step from Running never leads to a state that is both Halted and Faulted. -/
theorem step_fault_of_halted {s t : State} (h : step s = .next t) (ht : t.halted = true) : t.fault = none := by
  obtain ⟨hrun, ⟨e, -, rfl⟩ | ⟨i, -, hc⟩⟩ := step_cases h
  · obtain ⟨hhalted, -⟩ := (State.running_iff s).mp hrun
    cases hhalted.symm.trans ht
  · exact hc.fault_eq.trans ((State.running_iff s).mp hrun).2

/-- A step halts the machine when HLT is at PC. -/
theorem step_halted_iff {s t : State} (hrun : s.running = true) (h : step s = .next t) :
    t.halted = true ↔ s.pc.toNat ≤ 253 ∧ s.byteAt s.pc.toNat = 0x01#8 := by
  obtain ⟨hhalted, -⟩ := (State.running_iff s).mp hrun
  constructor
  · intro ht
    obtain ⟨-, ⟨e, -, rfl⟩ | ⟨i, ⟨hpc, hd⟩, hc⟩⟩ := step_cases h
    · cases hhalted.symm.trans ht
    · have hi : i = .hlt := by
        by_contra hne
        cases (hhalted.symm.trans (exec_keeps_halted hne (exec_of_commits hc)).symm).trans ht
      exact ⟨hpc, by rw [← decode_opcode_eq hd, hi]; rfl⟩
  · rintro ⟨hpc, hop⟩
    cases h.symm.trans (((runsAs_opcode .hlt) s hrun hop).1 hpc)
    rfl

/-- Settles O20: Halted by `step_halted_iff`, Faulted by `State.status_faulted_iff`, never both. -/
theorem stateMachineTransitions : Obligations.StateMachineTransitions := by
  intro s t hrun h
  refine ⟨(State.status_halted_iff t).trans (step_halted_iff hrun h),
    State.status_faulted_iff (step_fault_of_halted h), fun hf => ?_⟩
  exact Bool.eq_false_iff.mpr (mt (step_fault_of_halted h) hf)

/-! ### The invariant (10_state.md R38, R44) -/

theorem stateInv_fail {s : State} (hs : StateInv s) (hhalted : s.halted = false) {e : FaultRecord}
    (he : FaultRecordLawful e) : StateInv (s.fail e) where
  mem := hs.mem
  fl := hs.fl
  pc := hs.pc
  status ht := by cases hhalted.symm.trans ht
  record r hr := by cases hr; exact he

theorem Commits.mem_wf {i : Instr} {s t : State} (h : Commits s i t) (hs : s.mem.wf = true) : t.mem.wf = true := by
  rcases h.mem_cases with ⟨hm, -⟩ | ⟨-, -, v, hm, -⟩
  · rw [hm, hs]
  · rw [hm]
    exact Memory.write_wf hs v (by omega)

theorem Commits.fl_lawful {i : Instr} {s t : State} (h : Commits s i t)
    (hs : s.fl = 0#8 ∨ s.fl = 1#8 ∨ s.fl = 2#8 ∨ s.fl = 4#8) :
    t.fl = 0#8 ∨ t.fl = 1#8 ∨ t.fl = 2#8 ∨ t.fl = 4#8 := by
  rcases h.fl_cases with hfl | ⟨va, vb, hfl⟩
  · rwa [hfl]
  · rw [hfl]
    exact .inr (compareFlags_cases va vb)

/-- A jump goes to a byte; in sequence PC moves by at most 3 from at most 253. -/
theorem Commits.pc_le {i : Instr} {s t : State} (h : Commits s i t) (hpc : s.pc.toNat ≤ 253) : t.pc.toNat ≤ 256 := by
  rcases h.pc_cases with ht | ⟨target, ht⟩
  · have hwidth := (Op.width_le i.op).2
    rw [ht, seqPc_toNat i.op hpc]
    omega
  · rw [ht, BitVec.toNat_setWidth]
    omega

theorem Commits.keeps_inv {i : Instr} {s t : State} (h : Commits s i t) (hs : StateInv s) (hpc : s.pc.toNat ≤ 253)
    (hf : s.fault = none) : StateInv t where
  mem := h.mem_wf hs.mem
  fl := h.fl_lawful hs.fl
  pc := h.pc_le hpc
  status _ := h.fault_eq.trans hf
  record r hr := by cases (h.fault_eq.trans hf).symm.trans hr

/-- Settles O4: a fault keeps the invariant by `stateInv_fail`, a commit by `Commits.keeps_inv`. -/
theorem stepKeepsTheInvariant : Obligations.StepKeepsTheInvariant := by
  intro s t hs h
  obtain ⟨hrun, hcases⟩ := step_cases h
  obtain ⟨hhalted, hfault⟩ := (State.running_iff s).mp hrun
  rcases hcases with ⟨e, he, rfl⟩ | ⟨i, hi, hc⟩
  · exact stateInv_fail hs hhalted (he.lawful hs.pc)
  · exact hc.keeps_inv hs hi.1 hfault

/-- Settles O3: each clause of the invariant on the reset state's own value. -/
theorem resetMeetsTheInvariant : Obligations.ResetMeetsTheInvariant where
  mem := reset_memory_wf
  fl := .inl rfl
  pc := Nat.zero_le 256
  status _ := rfl
  record _ hr := by cases hr

/-! ### The invariant at the ports (70_reset_and_hazards.md R240, R244 to R246, R257, R258) -/

theorem stateInv_load {s : State} (hs : StateInv s) (hhalted : s.halted = false) (p : List Byte) :
    StateInv (s.load p) := by
  unfold State.load
  split
  · exact stateInv_fail hs hhalted ⟨rfl, rfl, p.length, ‹_›, rfl⟩
  · have hp : Config.loadBase + p.length ≤ 256 := by simp only [Config.loadBase]; omega
    exact { hs with mem := Memory.writeBytes_wf hs.mem p hp }

theorem stateInv_stepRequest {s : State} (hs : StateInv s) : StateInv s.stepRequest := by
  unfold State.stepRequest
  split
  · exact stepKeepsTheInvariant s _ hs ‹_›
  · exact hs
  · exact hs

theorem blockInv_load {k : Block} (hk : BlockInv k) (p : List Byte) : BlockInv (k.load p) := by
  unfold Block.load
  split
  · have hhalted : k.state.halted = false := by rw [hk.load ‹_›]; rfl
    exact ⟨stateInv_load hk.state hhalted p, fun hopen => by cases hopen⟩
  · exact hk

theorem blockInv_stepRequest {k : Block} (hk : BlockInv k) : BlockInv k.stepRequest := by
  unfold Block.stepRequest
  split
  · exact ⟨stateInv_stepRequest hk.state, fun hopen => by cases hopen⟩
  · exact hk

theorem blockInv_runRequest (n : Nat) {k : Block} (hk : BlockInv k) : BlockInv (Block.runRequest n k) := by
  induction n generalizing k with
  | zero => exact hk
  | succ n ih =>
    unfold Block.runRequest
    split
    · exact ih (blockInv_stepRequest hk)
    · exact hk

/-- Settles O5: one lemma for each port; a run by induction on its fuel. -/
theorem portsKeepTheInvariant : Obligations.PortsKeepTheInvariant := fun _ hk =>
  ⟨⟨resetMeetsTheInvariant, fun _ => rfl⟩, blockInv_load hk, blockInv_stepRequest hk, fun n => blockInv_runRequest n hk⟩

end Sys2Proof.Machine
end

section
/-! PROOFS. The family 'other', the instructions that leave the stack alone: PRN, the rest of the ALU, CMP and the
branches. A row's form is its opcode byte at PC (`runsAs_opcode`), its encoding, and the fault of `exec_of_firstOver`;
its effect is its lemma of Laws/Exec. -/

namespace Sys2Proof.Machine

/-! ### The forms of rows with register operands (30_encoding.md R80; 40_step.md R104) -/

theorem exec_build_of_firstOver {o : Op} {a b r : Byte} (s : State)
    (h : firstOver (Op.build a b o).regOperands = some r) :
    exec (Op.build a b o) s = .next (atRegisterFault o.opcode r s) := by
  rw [exec_of_firstOver s h, Op.op_build]

/-- A row whose one operand byte is a register. -/
theorem unaryForm_of_row {o : Op} {mk : Byte → Instr} (hbuild : ∀ a b, Op.build a b o = mk a)
    (hregs : ∀ a, (mk a).regOperands = [a]) (hencode : ∀ a, encode (mk a) = [o.opcode, a]) :
    UnaryForm o.opcode mk := by
  refine ⟨by simpa only [hbuild] using runsAs_opcode o, hencode, fun a s ha => ?_⟩
  rw [← hbuild a a]
  exact exec_build_of_firstOver s (by rw [hbuild, hregs, firstOver_over ha])

/-- A row whose two operand bytes are registers. -/
theorem binaryForm_of_row {o : Op} (hregs : ∀ a b, (Op.build a b o).regOperands = [a, b])
    (hencode : ∀ a b, encode (Op.build a b o) = [o.opcode, a, b]) :
    BinaryForm o.opcode (fun a b => Op.build a b o) := by
  refine ⟨runsAs_opcode o, hencode, fun a b s ha => ?_, fun a b s ha hb => ?_⟩
  · exact exec_build_of_firstOver s (by rw [hregs, firstOver_over ha])
  · obtain ⟨ra, rfl⟩ := (regByte_or_over a).resolve_right (Nat.not_lt.mpr ha)
    exact exec_build_of_firstOver s (by rw [hregs, firstOver_regByte, firstOver_over hb])

/-! ### PRN (41_data.md R131) -/

/-- Settles O26: PRN's row by `unaryForm_of_row`, its effect by `execPrn_regs`. -/
theorem prnEmitsTheRegister : Obligations.PrnEmitsTheRegister := by
  refine ⟨unaryForm_of_row (o := .prn) (fun _ _ => rfl) (fun _ => rfl) fun _ => rfl, fun ra s => ?_⟩
  exact ⟨_, execPrn_regs s ra, rfl, fun _ => rfl, seqPc_toNat .prn, rfl, fun _ => rfl, rfl, rfl⟩

/-! ### The ALU (42_alu.md R143 to R150) -/

/-- A row with the ALU datapath has the rule of the exact function that its function on bytes computes. -/
theorem aluRule_of_row {o : Op} {g : Byte → Byte → Byte} {f : Nat → Nat → Nat} (hg : aluFun o = some g)
    (hexact : ∀ x y, (g x y).toNat = f x.toNat y.toNat) : AluRule o.opcode (fun a b => Op.build a b o) f := by
  have hwidth : o.width = 3 := by cases o <;> cases hg <;> rfl
  refine aluRule_of_exec_eq hwidth (fun a b => ?_) (exec_alu hg) hexact
  rw [encode_build, hwidth]
  rfl

/-- Settles O28, by `aluRule_of_row` with the sum of `aluAdd_toNat`. -/
theorem addWritesTheSum : Obligations.AddWritesTheSum :=
  aluRule_of_row (o := .add) rfl aluAdd_toNat

/-- Settles O29, by `aluRule_of_row` with the difference of `aluSub_toNat`. -/
theorem subWritesTheDifference : Obligations.SubWritesTheDifference :=
  aluRule_of_row (o := .sub) rfl aluSub_toNat

/-- Settles O30, by `aluRule_of_row` for each of the three functions. -/
theorem bitwiseInstructions : Obligations.BitwiseInstructions :=
  ⟨aluRule_of_row (o := .and) rfl aluAnd_toNat,
   aluRule_of_row (o := .or) rfl aluOr_toNat,
   aluRule_of_row (o := .xor) rfl aluXor_toNat⟩

/-- Settles O31: NOT's row by `unaryForm_of_row`, its effect by `execNot_regs`, the value by `aluNot_toNat`. -/
theorem notWritesTheComplement : Obligations.NotWritesTheComplement := by
  refine ⟨unaryForm_of_row (o := .not) (fun _ _ => rfl) (fun _ => rfl) fun _ => rfl, fun ra s => ?_⟩
  have hresult : ((s.setReg ra (aluNot (s.reg ra))).reg ra).toNat = 255 - (s.reg ra).toNat := by
    rw [State.reg_setReg_same, aluNot_toNat]
  exact ⟨_, execNot_regs s ra, hresult, sameRegsBut_setReg_setPc s ra _ _, seqPc_toNat .not, rfl, fun _ => rfl, rfl,
    rfl, rfl⟩

/-- Past its 8 bits a byte is shifted out: 256 divides the scale. -/
theorem aluShl_of_ge (va : Byte) {vb : Byte} (h : 8 ≤ vb.toNat) : aluShl va vb = 0#8 := by
  apply BitVec.eq_of_toNat_eq
  have hdvd : 2 ^ 8 ∣ va.toNat * 2 ^ vb.toNat := (Nat.pow_dvd_pow 2 h).mul_left va.toNat
  rw [aluShl_toNat]
  exact Nat.mod_eq_zero_of_dvd hdvd

theorem aluShr_of_ge (va : Byte) {vb : Byte} (h : 8 ≤ vb.toNat) : aluShr va vb = 0#8 := by
  apply BitVec.eq_of_toNat_eq
  have hlt : va.toNat < 2 ^ vb.toNat := va.isLt.trans_le (Nat.pow_le_pow_right (by decide) h)
  rw [aluShr_toNat]
  exact Nat.div_eq_of_lt hlt

/-- Settles O32, by `aluRule_of_row`; a count of 8 or more by `aluShl_of_ge`. -/
theorem shlShiftsByTheWholeRegister : Obligations.ShlShiftsByTheWholeRegister := by
  refine ⟨aluRule_of_row (o := .shl) rfl aluShl_toNat, fun ra rb s t h8 h => ?_⟩
  cases h.symm.trans (execShl_regs s ra rb)
  rw [State.setPc_reg, State.reg_setReg_same, aluShl_of_ge _ h8]

/-- Settles O33, by `aluRule_of_row`; a count of 8 or more by `aluShr_of_ge`. -/
theorem shrShiftsByTheWholeRegister : Obligations.ShrShiftsByTheWholeRegister := by
  refine ⟨aluRule_of_row (o := .shr) rfl aluShr_toNat, fun ra rb s t h8 h => ?_⟩
  cases h.symm.trans (execShr_regs s ra rb)
  rw [State.setPc_reg, State.reg_setReg_same, aluShr_of_ge _ h8]

/-! ### CMP (44_compare_branch.md R190, R191) -/

theorem compareFlags_of_eq {va vb : Byte} (h : va.toNat = vb.toNat) : compareFlags va vb = 1#8 :=
  if_pos (BitVec.eq_of_toNat_eq h)

theorem compareFlags_of_gt {va vb : Byte} (h : vb.toNat < va.toNat) : compareFlags va vb = 2#8 := by
  have hne : va ≠ vb := by rintro rfl; exact lt_irrefl _ h
  rw [compareFlags, if_neg hne, if_pos h]

theorem compareFlags_of_lt {va vb : Byte} (h : va.toNat < vb.toNat) : compareFlags va vb = 4#8 := by
  have hne : va ≠ vb := by rintro rfl; exact lt_irrefl _ h
  rw [compareFlags, if_neg hne, if_neg h.not_gt]

/-- The three flags of a comparison are the three comparisons. -/
theorem flags_compareFlags (va vb : Byte) :
    flagE (compareFlags va vb) = decide (va = vb) ∧ flagG (compareFlags va vb) = decide (vb.toNat < va.toNat) ∧
      flagL (compareFlags va vb) = decide (va.toNat < vb.toNat) := by
  simp only [← BitVec.toNat_inj]
  rcases Nat.lt_trichotomy va.toNat vb.toNat with h | h | h
  · rw [compareFlags_of_lt h, decide_eq_false h.ne, decide_eq_false h.not_gt, decide_eq_true h]
    decide
  · rw [compareFlags_of_eq h, h, decide_eq_true rfl, decide_eq_false (lt_irrefl _)]
    decide
  · rw [compareFlags_of_gt h, decide_eq_false h.ne', decide_eq_true h, decide_eq_false h.not_gt]
    decide

/-- Settles O34: CMP's row by `binaryForm_of_row`, its three cases by the lemmas on `compareFlags`. -/
theorem cmpSetsExactlyOneFlag : Obligations.CmpSetsExactlyOneFlag := by
  refine ⟨binaryForm_of_row (o := .cmp) (fun _ _ => rfl) fun _ _ => rfl, fun ra rb s => ?_⟩
  exact ⟨_, execCmp_regs s ra rb, compareFlags_of_eq, compareFlags_of_gt, compareFlags_of_lt,
    flags_compareFlags _ _, fun _ => rfl, seqPc_toNat .cmp, fun _ => rfl, rfl, rfl, rfl⟩

/-! ### The branches (44_compare_branch.md R192 to R194) -/

theorem toNat_setWidth_nine (b : Byte) : (b.setWidth 9).toNat = b.toNat := by
  rw [BitVec.toNat_setWidth]
  omega

/-- Settles O35: JMP's row by `unaryForm_of_row`, its effect by `execJmp_regs`. -/
theorem jmpGoesToTheRegister : Obligations.JmpGoesToTheRegister := by
  refine ⟨unaryForm_of_row (o := .jmp) (fun _ _ => rfl) (fun _ => rfl) fun _ => rfl, fun ra s => ?_⟩
  exact ⟨_, execJmp_regs s ra, toNat_setWidth_nine _, fun _ => rfl, rfl, fun _ => rfl, rfl, rfl, rfl⟩

/-- Settles O36: not taken by `execJeq_advances`, taken by the branch of `execJeq_regs`. -/
theorem jeqGoesWhenEqual : Obligations.JeqGoesWhenEqual := by
  refine ⟨unaryForm_of_row (o := .jeq) (fun _ _ => rfl) (fun _ => rfl) fun _ => rfl, fun ra s => ?_⟩
  refine ⟨_, execJeq_regs s ra, fun hE => ?_, fun hE => execJeq_advances hE (execJeq_regs s ra), fun _ => rfl, rfl,
    fun _ => rfl, rfl, rfl, rfl⟩
  rw [State.setPc_pc, flagE, if_pos hE, toNat_setWidth_nine]

/-- Settles O37: not taken by `execJne_advances`, taken by the branch of `execJne_regs`. -/
theorem jneGoesWhenNotEqual : Obligations.JneGoesWhenNotEqual := by
  refine ⟨unaryForm_of_row (o := .jne) (fun _ _ => rfl) (fun _ => rfl) fun _ => rfl, fun ra s => ?_⟩
  refine ⟨_, execJne_regs s ra, fun hE => ?_, fun hE => execJne_advances hE (execJne_regs s ra), fun _ => rfl, rfl,
    fun _ => rfl, rfl, rfl, rfl⟩
  rw [State.setPc_pc, flagE, if_neg (Bool.eq_false_iff.mp hE), toNat_setWidth_nine]

end Sys2Proof.Machine
end

section
/-! PROOFS. The family 'other', the stack (43_stack.md). PUSH and CALL commit the same working copy, `State.pushed`: SP
one lower and a byte stored where it then points. What a POP or a RET finds there follows from its lemmas. -/

namespace Sys2Proof.Machine

/-! ### SP one lower and one higher -/

theorem toNat_sub_one {b : Byte} (h : 0 < b.toNat) : (b - 1#8).toNat = b.toNat - 1 := by
  bv_omega

theorem toNat_add_one {b : Byte} (h : b.toNat < 255) : (b + 1#8).toNat = b.toNat + 1 := by
  bv_omega

/-! ### The state with one more byte on the stack (43_stack.md R171, R173) -/

section
variable (s : State) (v : Byte) (p : PcWord)

@[simp] theorem State.pushed_reg (i : Fin 8) : (s.pushed v).reg i = if i = 7 then s.sp - 1#8 else s.reg i :=
  State.reg_setSp s i (s.sp - 1#8)

@[simp] theorem State.pushed_sp : (s.pushed v).sp = s.sp - 1#8 := State.sp_setSp s (s.sp - 1#8)

theorem sameRegsBut_pushed : SameRegsBut 7 s ((s.pushed v).setPc p) := by
  intro i hi
  rw [State.setPc_reg, State.pushed_reg, if_neg hi]

variable {s}

theorem pushed_sp_toNat (h : 0 < s.sp.toNat) : (((s.pushed v).setPc p).reg 7).toNat + 1 = (s.reg 7).toNat := by
  rw [State.setPc_reg, State.pushed_reg, if_pos rfl, toNat_sub_one h, Nat.sub_add_cancel h, State.sp_eq]

theorem State.pushed_byteAt (hwf : s.mem.wf = true) (n : Nat) :
    (s.pushed v).byteAt n = if n = (s.sp - 1#8).toNat then v else s.byteAt n :=
  Memory.read_write hwf _ v n

theorem pushed_byteAt_top (hwf : s.mem.wf = true) (h : 0 < s.sp.toNat) :
    ((s.pushed v).setPc p).byteAt ((s.reg 7).toNat - 1) = v := by
  rw [State.setPc_byteAt, State.pushed_byteAt v hwf]
  exact if_pos (toNat_sub_one h).symm

theorem sameMemoryBut_pushed (hwf : s.mem.wf = true) (h : 0 < s.sp.toNat) :
    SameMemoryBut ((s.reg 7).toNat - 1) s ((s.pushed v).setPc p) := by
  intro n hn
  rw [State.setPc_byteAt, State.pushed_byteAt v hwf, toNat_sub_one h]
  exact if_neg hn

end

/-! ### PUSH and CALL -/

/-- Settles O38: a PUSH that completes commits `State.pushed` of the register read after the decrement. -/
theorem pushStoresBelowTheStack : Obligations.PushStoresBelowTheStack := by
  refine ⟨unaryForm_of_row (o := .push) (fun _ _ => rfl) (fun _ => rfl) fun _ => rfl, fun ra s hwf h => ?_,
    fun ra s h => exec_of_stackOut (.push ra h)⟩
  have hvalue : (s.setSp (s.sp - 1#8)).reg ra = if ra = 7 then s.reg 7 - 1#8 else s.reg ra := State.reg_setSp ..
  exact ⟨_, exec_of_commits (.push ra h), pushed_sp_toNat _ _ h, sameRegsBut_pushed _ _ _,
    (pushed_byteAt_top _ _ hwf h).trans hvalue, sameMemoryBut_pushed _ _ hwf h, seqPc_toNat .push, rfl, rfl, rfl, rfl⟩

/-- Settles O40: a CALL that completes commits `State.pushed` of the return address. -/
theorem callPushesTheReturnAddress : Obligations.CallPushesTheReturnAddress := by
  refine ⟨unaryForm_of_row (o := .call) (fun _ _ => rfl) (fun _ => rfl) fun _ => rfl, fun ra s hwf hpc h => ?_,
    fun ra s h => exec_of_stackOut (.call ra h)⟩
  have htop := (congrArg BitVec.toNat (pushed_byteAt_top (returnAddress s.pc)
    (((s.setSp (s.sp - 1#8)).reg ra).setWidth 9) hwf h)).trans (returnAddress_toNat hpc)
  refine ⟨_, exec_of_commits (.call ra h), pushed_sp_toNat _ _ h, sameRegsBut_pushed _ _ _, htop,
    sameMemoryBut_pushed _ _ hwf h, ?_, rfl, rfl, rfl, rfl⟩
  rw [State.setPc_pc, toNat_setWidth_nine, State.reg_setSp]
  split
  · exact toNat_sub_one h
  · rfl

/-! ### POP and RET -/

/-- POP of a register other than R7 moves SP one up. -/
theorem execPop_of_ne {s : State} {ra : Fin 8} (hra : ra ≠ 7) (h : s.sp.toNat < 255) :
    exec (.pop (regByte ra)) s =
      .next (((s.setReg ra (s.byteAt s.sp.toNat)).setSp (s.sp + 1#8)).setPc (seqPc .pop s.pc)) := by
  have hsp : (s.setReg ra (s.byteAt s.sp.toNat)).sp = s.sp := by rw [State.sp_setReg, if_neg hra]
  rw [← hsp] at h
  rw [exec_of_commits (.pop ra h), hsp]

/-- POP R7 leaves SP one above the byte it loads. -/
theorem execPop_sp {s : State} (h : (s.byteAt s.sp.toNat).toNat < 255) :
    exec (.pop (regByte 7)) s =
      .next (((s.setReg 7 (s.byteAt s.sp.toNat)).setSp (s.byteAt s.sp.toNat + 1#8)).setPc (seqPc .pop s.pc)) := by
  have hsp : (s.setReg 7 (s.byteAt s.sp.toNat)).sp = s.byteAt s.sp.toNat := by rw [State.sp_setReg, if_pos rfl]
  rw [← hsp] at h
  rw [exec_of_commits (.pop 7 h), hsp]

/-- The registers after a POP: the loaded one, SP, and the rest as before. -/
theorem reg_popped (s : State) (ra i : Fin 8) (v w : Byte) (p : PcWord) :
    (((s.setReg ra v).setSp w).setPc p).reg i = if i = 7 then w else if i = ra then v else s.reg i := by
  rw [State.setPc_reg, State.reg_setSp, State.reg_setReg]

/-- Settles O39: POP by `execPop_of_ne`, POP R7 by `execPop_sp`, and the two faults as in O15. -/
theorem popLoadsTheTop : Obligations.PopLoadsTheTop := by
  obtain ⟨-, hpop, hpopSp, -⟩ := stackBoundsFault
  refine ⟨unaryForm_of_row (o := .pop) (fun _ _ => rfl) (fun _ => rfl) fun _ => rfl, fun ra s hra h => ?_,
    fun s h => ?_, hpop, hpopSp⟩
  · refine ⟨_, execPop_of_ne hra h, ?_, ?_, fun i hi hi7 => ?_, fun _ => rfl, seqPc_toNat .pop, rfl, rfl, rfl, rfl⟩
    · rw [reg_popped, if_neg hra, if_pos rfl, State.sp_eq]
    · rw [reg_popped, if_pos rfl]
      exact toNat_add_one h
    · rw [reg_popped, if_neg hi7, if_neg hi]
  · refine ⟨_, execPop_sp h, ?_, fun i hi => ?_, fun _ => rfl, seqPc_toNat .pop, rfl, rfl, rfl, rfl⟩
    · rw [reg_popped, if_pos rfl]
      exact toNat_add_one h
    · rw [reg_popped, if_neg hi, if_neg hi]

/-- Settles O41: each clause is RET's case of `Commits` or of `StackOut`. -/
theorem retPopsThePc : Obligations.RetPopsThePc := by
  refine ⟨⟨runsAs_opcode .ret, rfl⟩, fun s h => ?_, fun s h => exec_of_stackOut (.ret h)⟩
  refine ⟨_, exec_of_commits (.ret h), toNat_setWidth_nine _, ?_, fun i hi => ?_, fun _ => rfl, rfl, rfl, rfl, rfl⟩
  · rw [State.setPc_reg, State.reg_setSp, if_pos rfl]
    exact toNat_add_one h
  · rw [State.setPc_reg, State.reg_setSp, if_neg hi]

/-! ### PUSH then POP, CALL then RET, and nested pushes (43_stack.md R176, R177) -/

/-- POP finds the byte just pushed and moves SP back up, R7 too if what was pushed is the lowered SP. -/
theorem execPop_pushed {s : State} {v : Byte} {p : PcWord} {m : Fin 8} (hwf : s.mem.wf = true) (h : 0 < s.sp.toNat)
    (hv : m = 7 → v = s.sp - 1#8) :
    exec (.pop (regByte m)) ((s.pushed v).setPc p) =
      .next (((((s.pushed v).setPc p).setReg m v).setSp s.sp).setPc (seqPc .pop p)) := by
  have hsp : ((s.pushed v).setPc p).sp = s.sp - 1#8 := by rw [State.setPc_sp, State.pushed_sp]
  have htop : ((s.pushed v).setPc p).byteAt ((s.pushed v).setPc p).sp.toNat = v := by
    rw [hsp, State.setPc_byteAt, State.pushed_byteAt v hwf, if_pos rfl]
  have hlt : (s.sp - 1#8).toNat < 255 := by rw [toNat_sub_one h]; omega
  have hup : s.sp - 1#8 + 1#8 = s.sp := BitVec.sub_add_cancel ..
  by_cases hm : m = 7
  · subst hm
    rw [execPop_sp (by rw [htop, hv rfl]; exact hlt), htop, hv rfl, hup]
    rfl
  · rw [execPop_of_ne hm (by rw [hsp]; exact hlt), htop, hsp, hup]
    rfl

/-- The registers after that POP: the register popped into has the byte, and every other one is as before the PUSH. -/
theorem reg_popped_pushed {s : State} {v : Byte} {p q : PcWord} {m i : Fin 8} (hm : m = 7 → i ≠ 7) :
    (((((s.pushed v).setPc p).setReg m v).setSp s.sp).setPc q).reg i = if i = m then v else s.reg i := by
  rw [reg_popped, State.setPc_reg, State.pushed_reg]
  split
  · subst_vars
    rw [if_neg fun him => hm him.symm rfl, State.sp_eq]
  · rfl

/-- Settles O42: the POP by `execPop_pushed`, the registers after it by `reg_popped_pushed`. -/
theorem pushThenPop : Obligations.PushThenPop := by
  refine ⟨fun r s hwf h => ?_, fun n m s hn hm hwf h => ?_⟩
  · have hr : (s.setSp (s.sp - 1#8)).reg r = if r = 7 then s.sp - 1#8 else s.reg r := State.reg_setSp ..
    refine ⟨_, _, exec_of_commits (.push r h), execPop_pushed hwf h fun h7 => by rw [hr, if_pos h7], fun i => ?_, rfl,
      rfl, rfl, rfl⟩
    by_cases hi : i = 7
    · subst hi
      rw [reg_popped, if_pos rfl, State.sp_eq]
    · rw [reg_popped_pushed fun _ => hi, hr]
      split
      · subst_vars
        rw [if_neg hi]
      · rfl
  · refine ⟨_, _, exec_of_commits (.push n h), execPop_pushed hwf h fun h7 => absurd h7 hm, ?_, fun i hi => ?_⟩
    · rw [reg_popped_pushed fun h7 => absurd h7 hm, if_pos rfl, State.reg_setSp, if_neg hn]
    · rw [reg_popped_pushed fun h7 => absurd h7 hm, if_neg hi]

/-- Settles O43: the RET finds the return address at the lowered SP, and raises it again. -/
theorem callThenRet : Obligations.CallThenRet := by
  intro r s hwf hpc h
  refine ⟨_, exec_of_commits (.call r h), fun u hsp htop => ?_⟩
  rw [State.setPc_reg, State.pushed_reg, if_pos rfl] at hsp htop
  rw [State.setPc_byteAt, State.pushed_byteAt _ hwf, if_pos rfl] at htop
  have hdown : (s.sp - 1#8).toNat = s.sp.toNat - 1 := toNat_sub_one h
  have hlt : u.sp.toNat < 255 := by
    rw [State.sp_eq, hsp, hdown]
    omega
  refine ⟨_, exec_of_commits (.ret hlt), ?_, ?_⟩
  · rw [State.setPc_pc, toNat_setWidth_nine, State.sp_eq, hsp, htop, returnAddress_toNat hpc]
  · rw [State.setPc_reg, State.reg_setSp, if_pos rfl, State.sp_eq, hsp, BitVec.sub_add_cancel, State.sp_eq]

/-- As many pushes as SP counts complete, each taking SP down by one. -/
theorem execTimes_push (r : Fin 8) {n : Nat} {s : State} (hn : n ≤ (s.reg 7).toNat) :
    ∃ t, execTimes (.push (regByte r)) n s = some t ∧ (t.reg 7).toNat + n = (s.reg 7).toNat := by
  induction n generalizing s with
  | zero => exact ⟨s, rfl, rfl⟩
  | succ n ih =>
    have h : 0 < s.sp.toNat := Nat.lt_of_lt_of_le n.succ_pos hn
    have hdown := pushed_sp_toNat ((s.setSp (s.sp - 1#8)).reg r) (seqPc .push s.pc) h
    obtain ⟨t, ht, hsp⟩ := ih (Nat.le_of_succ_le_succ (hn.trans_eq hdown.symm))
    refine ⟨t, ?_, by omega⟩
    rw [execTimes, exec_of_commits (.push r h)]
    exact (if_pos rfl).trans ht

/-- Settles O44, by `execTimes_push`; after 244 pushes from 0xF4, SP is 0. -/
theorem pushesNestToTheBound : Obligations.PushesNestToTheBound := by
  refine ⟨fun r s n hn => execTimes_push r hn, fun r s h => ?_⟩
  have h244 : (s.reg 7).toNat = 244 := by rw [h]; rfl
  obtain ⟨t, ht, hsp⟩ := execTimes_push r h244.ge
  have hzero : (t.reg 7).toNat = 0 := by omega
  exact ⟨t, ht, BitVec.eq_of_toNat_eq hzero, exec_of_stackOut (.push r hzero)⟩

end Sys2Proof.Machine
end

section
/-! PROOFS. The family 'other', memory and output: the transactions of a step are those of the fetch and, when it
commits, those of the instruction. A step reads PC, FL, the registers and memory, never `out`. -/

namespace Sys2Proof.Machine

/-! ### The memory port (20_memory.md R51) -/

theorem memWrite_in_range (s : State) (op : Option Byte) {n : Nat} (v : Byte) (h : n ≤ 255) :
    memWrite s op (n : Int) v = .ok { s with mem := s.mem.write n v } :=
  if_pos ⟨by omega, by omega⟩

/-- Settles O45: in range by the laws of `Memory.write`, out of range by the port's check. -/
theorem memoryPortReadsAndWrites : Obligations.MemoryPortReadsAndWrites := by
  refine ⟨fun s op n hn => memRead_in_range s op hn, fun s op v n hwf hn => ?_,
    fun s op v addr h => ⟨memRead_out_of_range s op h, memWrite_out_of_range s op v h⟩⟩
  refine ⟨_, memWrite_in_range s op v hn, ?_, fun k hk => ?_, Memory.write_wf hwf v hn, rfl⟩
  · rw [byteAt_write hwf, if_pos rfl]
  · rw [byteAt_write hwf, if_neg hk]

/-! ### The transactions of a step (20_memory.md R68) -/

/-- The three bytes at PC. -/
def State.latches (s : State) : Latches := ⟨s.byteAt s.pc.toNat, s.byteAt (s.pc.toNat + 1), s.byteAt (s.pc.toNat + 2)⟩

theorem fetch_eq_latches {s : State} (hpc : s.pc.toNat ≤ 253) : fetch s = .ok s.latches := fetch_of_le hpc

theorem stepEvents_of_exec {s t : State} {i : Instr} (hrun : s.running = true) (hi : DecodesAtPc s i)
    (h : exec i s = .next t) :
    stepEvents s =
      if t.fault.isNone then fetchEvents s s.latches ++ execEvents i s t else fetchEvents s s.latches := by
  have hd : decode Config.aluExt s.latches.op s.latches.a s.latches.b = .ok i := hi.2
  simp only [stepEvents, State.status_of_running s hrun, fetch_eq_latches hi.1, hd, h]

theorem stepEvents_of_commits {s t : State} {i : Instr} (hrun : s.running = true) (hi : DecodesAtPc s i)
    (h : Commits s i t) : stepEvents s = fetchEvents s s.latches ++ execEvents i s t := by
  have hf : t.fault = none := h.fault_eq.trans ((State.running_iff s).mp hrun).2
  rw [stepEvents_of_exec hrun hi (exec_of_commits h), hf]
  rfl

/-- A step that takes a fault has read for its fetch at most. -/
theorem stepEvents_of_takesFault {s : State} {e : FaultRecord} (hrun : s.running = true) (h : TakesFault s e) :
    stepEvents s = [] ∨ stepEvents s = fetchEvents s s.latches := by
  cases h with
  | fetch hpc => exact .inl (by simp only [stepEvents, State.status_of_running s hrun, fetch_of_gt hpc])
  | @illegal r hpc hd =>
    have hd : decode Config.aluExt s.latches.op s.latches.a s.latches.b = .error r := hd
    exact .inr (by simp only [stepEvents, State.status_of_running s hrun, fetch_eq_latches hpc, hd])
  | register hi hr => exact .inr (stepEvents_of_exec hrun hi (exec_of_firstOver s hr))
  | stack hi hn => exact .inr (stepEvents_of_exec hrun hi (exec_of_stackOut hn))

theorem memWrite_not_mem_fetchEvents {s : State} {l : Latches} {n : Nat} {v : Byte} :
    PortEvent.memWrite n v ∉ fetchEvents s l := by
  simp [fetchEvents]

/-! ### Memory (20_memory.md R52) -/

theorem memWrite_not_mem_of_takesFault {s : State} {e : FaultRecord} (hrun : s.running = true) (h : TakesFault s e)
    (n : Nat) (v : Byte) : PortEvent.memWrite n v ∉ stepEvents s := by
  rcases stepEvents_of_takesFault hrun h with he | he
  · rw [he]
    exact List.not_mem_nil
  · rw [he]
    exact memWrite_not_mem_fetchEvents

theorem memWrite_mem_of_commits {s t : State} {i : Instr} (hrun : s.running = true) (hi : DecodesAtPc s i)
    (h : Commits s i t) (n : Nat) (v : Byte) :
    PortEvent.memWrite n v ∈ stepEvents s ↔ PortEvent.memWrite n v ∈ execEvents i s t := by
  rw [stepEvents_of_commits hrun hi h, List.mem_append, or_iff_right memWrite_not_mem_fetchEvents]

/-- Settles O46: a fault changes no byte and writes none; a commit by `Commits.mem_cases`. -/
theorem memoryChangesOnlyByWrites : Obligations.MemoryChangesOnlyByWrites := by
  intro s t hwf h
  obtain ⟨hrun, ⟨e, he, rfl⟩ | ⟨i, hi, hc⟩⟩ := step_cases h
  · exact ⟨fun n hn => absurd rfl hn, fun n v hw => absurd hw (memWrite_not_mem_of_takesFault hrun he n v)⟩
  simp only [memWrite_mem_of_commits hrun hi hc]
  rcases hc.mem_cases with ⟨hm, hno⟩ | ⟨hop, hpos, w, hm, hev⟩
  · exact ⟨fun n hn => absurd (congrArg (Memory.read · n) hm) hn, fun n v hw => absurd hw (hno n v)⟩
  · have hbyte (n : Nat) : t.byteAt n = if n = (s.sp - 1#8).toNat then w else s.byteAt n := by
      rw [State.byteAt, hm, Memory.read_write hwf]
      rfl
    rw [hev]
    refine ⟨fun n hn => ⟨w, ?_⟩, fun n v hw => ?_⟩
    · by_contra hno
      exact hn (by rw [hbyte, if_neg fun hat => hno (by rw [hat]; exact List.mem_singleton_self _)])
    · cases List.mem_singleton.mp hw
      refine ⟨by rw [hbyte, if_pos rfl], ?_, ?_⟩
      · rw [toNat_sub_one hpos, Nat.sub_add_cancel hpos, State.sp_eq]
      · rw [← decode_opcode_eq hi.2]
        exact hop.imp (congrArg Op.opcode) (congrArg Op.opcode)

/-! ### Output (20_memory.md R53, R66) -/

theorem emitted_of_takesFault {s : State} {e : FaultRecord} (hrun : s.running = true) (h : TakesFault s e) :
    emitted (stepEvents s) = [] := by
  rcases stepEvents_of_takesFault hrun h with he | he
  · rw [he]; rfl
  · rw [he]; rfl

theorem emitted_of_commits {s t : State} {i : Instr} (hrun : s.running = true) (hi : DecodesAtPc s i)
    (h : Commits s i t) : emitted (stepEvents s) = emitted (execEvents i s t) := by
  rw [stepEvents_of_commits hrun hi h]
  rfl

/-- Settles O47: a fault emits nothing; a commit by `Commits.out_cases`. -/
theorem outputGrowsByWhatIsEmitted : Obligations.OutputGrowsByWhatIsEmitted := by
  intro s t h
  obtain ⟨hrun, ⟨e, he, rfl⟩ | ⟨i, hi, hc⟩⟩ := step_cases h
  · rw [emitted_of_takesFault hrun he]
    exact ⟨(List.append_nil _).symm, Nat.zero_le 1, fun hne => absurd rfl hne, fun ⟨_, _, hf⟩ => by cases hf⟩
  · have hf : t.fault = none := hc.fault_eq.trans ((State.running_iff s).mp hrun).2
    have hop : s.byteAt s.pc.toNat = 0x47#8 ↔ i.op = .prn := by
      rw [← decode_opcode_eq hi.2]
      exact Op.opcode_inj (o' := .prn)
    rw [emitted_of_commits hrun hi hc, hop]
    rcases hc.out_cases with ⟨hprn, v, hout, hev⟩ | ⟨hprn, hout, hev⟩
    · rw [hev]
      exact ⟨hout, Nat.le_refl 1, fun _ => ⟨hi.1, hprn, hf⟩, fun _ => List.cons_ne_nil v []⟩
    · rw [hev, List.append_nil]
      exact ⟨hout, Nat.zero_le 1, fun hne => absurd rfl hne, fun ⟨_, hp, _⟩ => absurd hp hprn⟩

/-! ### What a step reads: states with the same PC, memory and SP fault alike -/

section
variable {s t : State} (hpc : t.pc = s.pc) (hmem : t.mem = s.mem) (hsp : t.sp = s.sp)
include hmem

theorem byteAt_congr : t.byteAt = s.byteAt := by
  funext n
  rw [State.byteAt, hmem, State.byteAt]

include hpc in
theorem decodesAtPc_congr {i : Instr} (h : DecodesAtPc s i) : DecodesAtPc t i := by
  unfold DecodesAtPc
  rwa [hpc, byteAt_congr hmem]

include hsp

theorem StackOut.congr {i : Instr} {n : Int} (h : StackOut s i n) : StackOut t i n := by
  cases h with
  | push ra h => exact .push ra (hsp ▸ h)
  | call ra h => exact .call ra (hsp ▸ h)
  | pop ra h => exact .pop ra (by rwa [State.sp_setReg, byteAt_congr hmem, hsp, ← State.sp_setReg])
  | ret h => exact .ret (hsp ▸ h)

include hpc

theorem TakesFault.congr {e : FaultRecord} (h : TakesFault s e) : TakesFault t e := by
  cases h with
  | fetch h253 =>
    rw [← hpc] at h253 ⊢
    exact .fetch h253
  | illegal h253 hd =>
    rw [← hpc, ← byteAt_congr hmem] at hd ⊢
    exact .illegal (hpc ▸ h253) hd
  | register hi hr =>
    rw [← hpc]
    exact .register (decodesAtPc_congr hpc hmem hi) hr
  | stack hi hn =>
    rw [← hpc]
    exact .stack (decodesAtPc_congr hpc hmem hi) (hn.congr hmem hsp)

end

/-- The state with another list in place of `out`. -/
def State.withOut (s : State) (l : List Byte) : State := { s with out := l }

/-- The commit appends the same values to any list. -/
def AppendsAlike (s : State) (i : Instr) (t : State) : Prop :=
  ∃ es : List Byte, t.out = s.out ++ es ∧ ∀ l, Commits (s.withOut l) i (t.withOut (l ++ es))

theorem appendsAlike_of_kept {s t : State} {i : Instr} (hout : t.out = s.out)
    (h : ∀ l, Commits (s.withOut l) i (t.withOut l)) : AppendsAlike s i t :=
  ⟨[], by rw [hout, List.append_nil], fun l => by rw [List.append_nil]; exact h l⟩

theorem Commits.appendsAlike {s t : State} {i : Instr} (h : Commits s i t) : AppendsAlike s i t := by
  cases h with
  | prn ra => exact ⟨[s.reg ra], rfl, fun l => .prn ra⟩
  | hlt => exact appendsAlike_of_kept rfl fun _ => .hlt
  | ldi ra b => exact appendsAlike_of_kept rfl fun _ => .ldi ra b
  | not ra => exact appendsAlike_of_kept rfl fun _ => .not ra
  | alu hf ra rb => exact appendsAlike_of_kept rfl fun _ => .alu hf ra rb
  | cmp ra rb => exact appendsAlike_of_kept rfl fun _ => .cmp ra rb
  | jmp ra => exact appendsAlike_of_kept rfl fun _ => .jmp ra
  | jeq ra => exact appendsAlike_of_kept rfl fun _ => .jeq ra
  | jne ra => exact appendsAlike_of_kept rfl fun _ => .jne ra
  | push ra h => exact appendsAlike_of_kept rfl fun _ => .push ra h
  | call ra h => exact appendsAlike_of_kept rfl fun _ => .call ra h
  | pop ra h => exact appendsAlike_of_kept rfl fun _ => .pop ra h
  | ret h => exact appendsAlike_of_kept rfl fun _ => .ret h

/-- Settles O48: neither a fault nor a commit depends on `out`. -/
theorem programsCannotReadOutput : Obligations.ProgramsCannotReadOutput := by
  intro s t l h
  obtain ⟨hrun, ⟨e, he, rfl⟩ | ⟨i, hi, hc⟩⟩ := step_cases h
  · refine ⟨[], (List.append_nil _).symm, ?_⟩
    rw [List.append_nil]
    exact step_of_takesFault (s := s.withOut l) hrun (he.congr (s := s) (t := s.withOut l) rfl rfl rfl)
  · obtain ⟨es, hout, hes⟩ := hc.appendsAlike
    have hi' : DecodesAtPc (s.withOut l) i := hi
    exact ⟨es, hout, step_of_commits (s := s.withOut l) hrun hi' (hes l)⟩

end Sys2Proof.Machine
end

section
/-! PROOFS. The family 'other', the host's ports (70_reset_and_hazards.md) and the profile LS8-DOC (00_scope.md R8). -/

namespace Sys2Proof.Machine

/-! ### Reset, status and inspection (R240, R255, R256) -/

/-- Settles O2: the reset state's fields, its registers each in turn. -/
theorem resetGivesTheDecidedValues : Obligations.ResetGivesTheDecidedValues :=
  ⟨by decide, rfl, rfl, rfl, rfl⟩

/-- Settles O54: the reset port ignores the block it is given. -/
theorem resetPortRecreatesTheState : Obligations.ResetPortRecreatesTheState := fun _ => ⟨rfl, rfl, rfl⟩

theorem State.status_running_iff (s : State) : s.status = .running ↔ s.halted = false ∧ s.fault = none :=
  ⟨fun h => (State.running_iff s).mp (State.running_of_status s h),
   fun h => State.status_of_running s ((State.running_iff s).mpr h)⟩

/-- Settles O55: the three readings of the status, one lemma each; the inspection port reads the fields. -/
theorem statusAndInspectionPorts : Obligations.StatusAndInspectionPorts := fun k =>
  ⟨k.state.status_running_iff, k.state.status_halted_iff, fun r h => State.status_faulted_iff h r, fun _ => rfl,
    fun _ => rfl, rfl, rfl, rfl⟩

/-! ### Load (R244 to R246) -/

theorem State.load_of_le (s : State) {p : List Byte} (h : p.length ≤ 256) :
    s.load p = { s with mem := s.mem.writeBytes Config.loadBase p } :=
  if_neg (Nat.not_lt.mpr h)

theorem State.load_of_gt (s : State) {p : List Byte} (h : 256 < p.length) : s.load p = s.fail (.load p.length) :=
  if_pos h

theorem Block.reset_load (k : Block) (p : List Byte) :
    k.reset.load p = { state := State.reset.load p, loadOpen := false } := rfl

/-- Settles O50: the loaded bytes by `Memory.read_writeBytes`, 0 past the end of the program. -/
theorem loadPlacesTheProgram : Obligations.LoadPlacesTheProgram := by
  intro p k hp
  rw [Block.reset_load, State.load_of_le State.reset hp]
  refine ⟨rfl, fun n => ?_, rfl⟩
  refine (Memory.read_writeBytes reset_memory_wf p (base := Config.loadBase) (by simpa [Config.loadBase]) n).trans ?_
  split
  · rfl
  · rename_i hn
    have hlen : p.length ≤ n := by simpa [Config.loadBase] using hn
    rw [List.getD_eq_default p _ hlen]
    rfl

/-- Settles O51, by `State.load_of_gt`. -/
theorem overlongLoadFaults : Obligations.OverlongLoadFaults := by
  intro p k hp
  rw [Block.reset_load, State.load_of_gt State.reset hp]
  exact ⟨rfl, rfl⟩

theorem Block.load_of_closed {k : Block} (h : k.loadOpen = false) (p : List Byte) : k.load p = k :=
  if_neg (Bool.eq_false_iff.mp h)

theorem Block.load_closes (k : Block) (p : List Byte) : (k.load p).loadOpen = false := by
  cases h : k.loadOpen
  · rw [Block.load_of_closed h, h]
  · rw [Block.load, if_pos h]

theorem Block.stepRequest_of_running {k : Block} (h : k.state.running = true) :
    k.stepRequest = { state := k.state.stepRequest, loadOpen := false } :=
  if_pos h

theorem Block.runRequest_of_running (n : Nat) {k : Block} (h : k.state.running = true) :
    Block.runRequest (n + 1) k = Block.runRequest n k.stepRequest :=
  if_pos h

theorem Block.runRequest_keeps_closed (n : Nat) {k : Block} (h : k.loadOpen = false) :
    (Block.runRequest n k).loadOpen = false := by
  induction n generalizing k with
  | zero => exact h
  | succ n ih =>
    cases hrun : k.state.running
    · rw [Block.runRequest_of_not_running _ hrun, h]
    · rw [Block.runRequest_of_running n hrun]
      exact ih (by rw [Block.stepRequest_of_running hrun])

/-- Settles O52: in each case the port is closed. -/
theorem loadIsRefusedLater : Obligations.LoadIsRefusedLater := by
  refine fun p q k => ⟨Block.load_of_closed (k.load_closes p) q, fun hrun => ?_, fun hclosed n => ?_⟩
  · exact Block.load_of_closed (by rw [Block.stepRequest_of_running hrun]) q
  · exact Block.load_of_closed (Block.runRequest_keeps_closed n hclosed) q

/-! ### Runs (R258; 40_step.md R111) -/

theorem Block.runRequest_one (k : Block) : Block.runRequest 1 k = k.stepRequest := by
  cases hrun : k.state.running
  · rw [Block.runRequest_of_not_running 1 hrun, Block.stepRequest_of_not_running hrun]
  · exact Block.runRequest_of_running 0 hrun

theorem Block.runRequest_add (n m : Nat) (k : Block) :
    Block.runRequest (n + m) k = Block.runRequest m (Block.runRequest n k) := by
  induction n generalizing k with
  | zero => rw [Nat.zero_add]; rfl
  | succ n ih =>
    cases hrun : k.state.running
    · simp only [Block.runRequest_of_not_running _ hrun]
    · rw [Nat.succ_add, Block.runRequest_of_running _ hrun, Block.runRequest_of_running _ hrun, ih]

/-- Settles O53: `Block.runRequest_add` by induction on the first run's fuel, and an ended run stays ended. -/
theorem runRepeatsSteps : Obligations.RunRepeatsSteps := by
  refine ⟨Block.runRequest_one, Block.runRequest_add, fun n m k hnm hended => ?_,
    fun n k => Block.runRequest_of_not_running n⟩
  obtain ⟨d, rfl⟩ := Nat.exists_eq_add_of_le hnm
  rw [Block.runRequest_add, Block.runRequest_of_not_running d hended]

/-! ### The profile LS8-DOC -/

/-- The opcodes of the rows that LS8-DOC does not have. -/
def extendedOpcodes : List Byte := [0x69#8, 0xA1#8, 0xA8#8, 0xAA#8, 0xAB#8, 0xAC#8, 0xAD#8]

theorem opcode_mem_extendedOpcodes {o : Op} (h : o.inProfile false = false) : o.opcode ∈ extendedOpcodes := by
  revert h
  cases o <;> decide

/-- A byte that is no extended opcode decodes alike in both profiles. -/
theorem decode_profiles_eq {op : Byte} (h : op ∉ extendedOpcodes) (a b : Byte) :
    decode false op a b = decode true op a b := by
  have hrow : Op.ofByte false op = Op.ofByte true op := by
    cases hfind : Op.table.find? (fun o => o.opcode == op) with
    | none => simp only [Op.ofByte, hfind]
    | some o =>
      have hop : o.opcode = op := by simpa using List.find?_some hfind
      have hdoc : o.inProfile false = true := by
        by_contra hno
        exact h (hop ▸ opcode_mem_extendedOpcodes (Bool.eq_false_iff.mpr hno))
      have hcore : o.inProfile true = true := rfl
      simp only [Op.ofByte, hfind, hdoc, hcore]
  simp only [decode, hrow]

theorem stepIn_profiles_eq_of_not_running (ext ext' : Bool) {s : State} (h : s.running = false) :
    stepIn ext s = stepIn ext' s := by
  unfold stepIn
  split
  · rfl
  · rfl
  · rename_i hrun
    cases h.symm.trans (State.running_of_status s hrun)

/-- Settles O56: an extended opcode by `stepIn_of_not_mem`; any other byte decodes alike, and the rest of a step does
not read the profile. -/
theorem ls8DocProfile : Obligations.Ls8DocProfile := by
  have hillegal : ∀ op ∈ extendedOpcodes, op ∉ profileOpcodes false := by decide
  refine fun s => ⟨fun hrun hpc hop => stepIn_of_not_mem hrun hpc (hillegal _ hop), fun h => ?_, rfl⟩
  cases hrun : s.running
  · exact stepIn_profiles_eq_of_not_running false true hrun
  rw [stepIn_running _ hrun, stepIn_running _ hrun]
  by_cases hpc : s.pc.toNat ≤ 253
  · have hop : s.byteAt s.pc.toNat ∉ extendedOpcodes := by
      rcases h with hop | hgt | hnot
      · exact hop
      · exact absurd hpc (Nat.not_le.mpr hgt)
      · cases hrun.symm.trans hnot
    rw [cycle_of_le _ hpc, cycle_of_le _ hpc, decode_profiles_eq hop]
  · rw [cycle_of_gt _ (Nat.lt_of_not_le hpc), cycle_of_gt _ (Nat.lt_of_not_le hpc)]

end Sys2Proof.Machine
end

section
/-! PROOFS. The family 'other', the strict mode (10_state.md R43): what it holds unwritten, what instructions write and
read in it, and when a strict step is the step. -/

namespace Sys2Proof.Machine

/-! ### What the mode holds unwritten, and what instructions write and read in it -/

/-- The unwritten items after a commit of the instruction. -/
def stillUnwritten (i : Instr) (unwritten : List StrictItem) : List StrictItem :=
  unwritten.filter fun x => !(writeItems i).contains x

theorem mem_stillUnwritten {i : Instr} {u : List StrictItem} {x : StrictItem} :
    x ∈ stillUnwritten i u ↔ x ∈ u ∧ x ∉ writeItems i := by
  simp [stillUnwritten]

theorem mem_reset_unwritten (x : StrictItem) :
    x ∈ StrictState.reset.unwritten ↔ x = .fl ∨ ∃ r : Fin 8, r ≠ 7 ∧ x = .reg (regByte r) := by
  have hlisted : ∀ x ∈ StrictState.reset.unwritten, x = .fl ∨ ∃ r : Fin 8, r ≠ 7 ∧ x = .reg (regByte r) := by decide
  have hregs : ∀ r : Fin 8, r ≠ 7 → .reg (regByte r) ∈ StrictState.reset.unwritten := by decide
  refine ⟨hlisted x, ?_⟩
  rintro (rfl | ⟨r, hr, rfl⟩)
  · decide
  · exact hregs r hr

theorem fl_mem_writeItems (i : Instr) : .fl ∈ writeItems i ↔ ∃ a b, i = .cmp a b := by
  cases i <;> simp [writeItems]

theorem reg_mem_writeItems (i : Instr) (r : Byte) : .reg r ∈ writeItems i ↔
    i = .pop r ∨ i = .not r ∨ ∃ b, i ∈ [Instr.ldi r b, .mul r b, .add r b, .sub r b, .and r b, .or r b, .xor r b,
      .shl r b, .shr r b] := by
  cases i <;> simp [writeItems, eq_comm (a := r)]

theorem fl_mem_readItems (i : Instr) (s : State) : .fl ∈ readItems i s ↔ ∃ a, i = .jeq a ∨ i = .jne a := by
  cases i with
  | jeq a | jne a => cases hE : flagE s.fl <;> simp [readItems, hE]
  | _ => simp [readItems]

theorem reg_mem_readItems (i : Instr) (s : State) (r : Byte) : .reg r ∈ readItems i s ↔
    i ∈ [Instr.push r, .prn r, .call r, .jmp r, .not r] ∨
    (i = .jeq r ∧ s.fl.getLsbD 0 = true) ∨ (i = .jne r ∧ s.fl.getLsbD 0 = false) ∨
    ∃ a b, (r = a ∨ r = b) ∧ i ∈ [Instr.mul a b, .add a b, .sub a b, .and a b, .or a b, .xor a b, .shl a b, .shr a b,
      .cmp a b] := by
  have hflag : s.fl.getLsbD 0 = flagE s.fl := rfl
  rw [hflag]
  cases i with
  | jeq a | jne a => cases hE : flagE s.fl <;> simp [readItems, hE, eq_comm (a := r)]
  | add a b | sub a b | mul a b | cmp a b | and a b | or a b | xor a b | shl a b | shr a b =>
    simp [readItems, or_and_right, exists_or, eq_comm (a := r)]
  | hlt | ret | push a | pop a | prn a | call a | jmp a | not a | ldi a b => simp [readItems, eq_comm (a := r)]

/-- Settles O59: each table row by row. -/
theorem strictModeReadsAndWrites : Obligations.StrictModeReadsAndWrites :=
  ⟨rfl, mem_reset_unwritten, fl_mem_writeItems, reg_mem_writeItems, fl_mem_readItems, reg_mem_readItems⟩

/-! ### When a strict step is the step -/

section
variable {k : StrictState} {t : State} (h : step k.state = .next t)
include h

theorem strictStep_of_fault (hf : t.fault ≠ none) : strictStep k = .next { k with state := t } := by
  have hsome : t.fault.isSome = true := Option.isSome_iff_ne_none.mpr hf
  simp only [strictStep, h, hsome, if_true]

variable {i : Instr} (hf : t.fault = none) (hi : DecodesAtPc k.state i)
include hf hi

theorem strictStep_of_unwritten {x : StrictItem} (hx : (readItems i k.state).find? k.unwritten.contains = some x) :
    strictStep k = .fault (.unwrittenRead x) := by
  have hinstr := (k.state.instrAt_iff i).mpr hi
  simp only [strictStep, h, hf, hinstr, hx, Option.isSome_none, Bool.false_eq_true, if_false]

theorem strictStep_of_written (hx : (readItems i k.state).find? k.unwritten.contains = none) :
    strictStep k = .next { state := t, unwritten := stillUnwritten i k.unwritten } := by
  have hinstr := (k.state.instrAt_iff i).mpr hi
  simp only [strictStep, h, hf, hinstr, hx, Option.isSome_none, Bool.false_eq_true, if_false]
  rfl

end

theorem strictStep_of_stop {k : StrictState} {f : Fault} (h : step k.state = .fault f) :
    strictStep k = .fault (.notRunning f) := by
  simp only [strictStep, h]

theorem find?_unwritten_eq_none {u l : List StrictItem} : l.find? u.contains = none ↔ ∀ x ∈ l, x ∉ u := by
  simp [List.find?_eq_none]

/-- A strict step that answers a next state is the step, and leaves no more items unwritten. -/
theorem strictStep_next {k l : StrictState} (h : strictStep k = .next l) :
    step k.state = .next l.state ∧ ∀ x ∈ l.unwritten, x ∈ k.unwritten := by
  rcases strictStep_cases k with ⟨f, -, hk⟩ | ⟨r, -, hk⟩ | ⟨t, ht, -, hk⟩ | ⟨t, i, ht, -, -, -, ⟨x, -, hk⟩ | ⟨-, hk⟩⟩
  · cases h.symm.trans hk
  · cases h.symm.trans hk
  · cases h.symm.trans hk
    exact ⟨ht, fun _ hx => hx⟩
  · cases h.symm.trans hk
  · cases h.symm.trans hk
    exact ⟨ht, fun _ hx => (mem_stillUnwritten.mp hx).1⟩

/-- `UnwrittenRead` is raised in a step that would commit, on an unwritten item that its instruction reads. -/
theorem strictStep_unwrittenRead {k : StrictState} {x : StrictItem} (h : strictStep k = .fault (.unwrittenRead x)) :
    x ∈ k.unwritten ∧ ∃ i t, DecodesAtPc k.state i ∧ x ∈ readItems i k.state ∧ step k.state = .next t ∧
      t.fault = none := by
  rcases strictStep_cases k with ⟨f, -, hk⟩ | ⟨r, -, hk⟩ | ⟨t, -, -, hk⟩ |
    ⟨t, i, ht, hf, hi, -, ⟨y, hy, hk⟩ | ⟨-, hk⟩⟩
  · cases h.symm.trans hk
  · cases h.symm.trans hk
  · cases h.symm.trans hk
  · cases h.symm.trans hk
    exact ⟨by simpa using List.find?_some hy, i, t, (k.state.instrAt_iff i).mp hi, List.mem_of_find?_eq_some hy, ht, hf⟩
  · cases h.symm.trans hk

theorem strictStep_all_written {s t : State} (h : step s = .next t) :
    strictStep { state := s, unwritten := [] } = .next { state := t, unwritten := [] } := by
  by_cases hf : t.fault = none
  · obtain ⟨i, hi, -⟩ := step_commits h hf
    exact strictStep_of_written h hf ((s.instrAt_iff i).mp hi) (find?_unwritten_eq_none.mpr fun _ _ => List.not_mem_nil)
  · exact strictStep_of_fault h hf

/-- Settles O57: the forward clauses by the lemmas of this section, the converse ones by the cases of a strict step. -/
theorem strictStepIsTheStepOnWrittenState : Obligations.StrictStepIsTheStepOnWrittenState := by
  refine ⟨fun k t h hf => strictStep_of_fault h hf, fun k t i h hf hi hread => ?_,
    fun k t i before after x h hf hi hsplit hbefore hx => ?_, fun k f h => strictStep_of_stop h,
    fun k l h => strictStep_next h, fun k x h => strictStep_unwrittenRead h, fun s t h => strictStep_all_written h⟩
  · exact ⟨_, strictStep_of_written h hf hi (find?_unwritten_eq_none.mpr hread), rfl, fun _ => mem_stillUnwritten⟩
  · refine strictStep_of_unwritten h hf hi ?_
    rw [hsplit, List.find?_append, find?_unwritten_eq_none.mpr hbefore, Option.none_or]
    exact List.find?_cons_of_pos (List.contains_iff_mem.mpr hx)

end Sys2Proof.Machine
end

section
/-! PROOFS. The family 'other', the strict mode's noninterference (10_state.md R43). States that differ only in what is
unwritten take the same faults and read the same first unwritten item; an instruction that reads none commits states
that still differ only in what is unwritten (`Commits.alike`). -/

namespace Sys2Proof.Machine

/-! ### States that differ only in what is unwritten -/

/-- Two states that differ at most in registers and FL. -/
structure SameRest (s t : State) : Prop where
  mem : t.mem = s.mem
  pc : t.pc = s.pc
  halted : t.halted = s.halted
  fault : t.fault = s.fault
  out : t.out = s.out

theorem sameRest_iff {s t : State} : SameRest s t ↔ { t with x := s.x, fl := s.fl } = s := by
  refine ⟨fun ⟨hm, hp, hh, hf, ho⟩ => by rw [hm, hp, hh, hf, ho], fun h => ?_⟩
  exact ⟨(congrArg State.mem h :), (congrArg State.pc h :), (congrArg State.halted h :), (congrArg State.fault h :),
    (congrArg State.out h :)⟩

theorem regByte_inj {i j : Fin 8} (h : regByte i = regByte j) : i = j :=
  Fin.ext (by rw [← regByte_toNat, h, regByte_toNat])

section
variable {u u' : List StrictItem} {s t : State} {v w : Byte} (h : SameWritten u s t)
include h

theorem sameWritten_rest : SameRest s t := sameRest_iff.mpr h.rest

theorem sameWritten_sp (h7 : .reg 7#8 ∉ u) : t.sp = s.sp := h.reg 7 h7

theorem sameWritten_mono (hu : ∀ x ∈ u, x ∈ u') : SameWritten u' s t :=
  ⟨fun i hi => h.reg i (mt (hu _) hi), fun hfl => h.fl (mt (hu _) hfl), h.rest⟩

theorem sameWritten_setPc {p q : PcWord} (hpq : q = p) : SameWritten u (s.setPc p) (t.setPc q) := by
  obtain ⟨hm, -, hh, hf, ho⟩ := sameWritten_rest h
  exact ⟨h.reg, h.fl, sameRest_iff.mp ⟨hm, hpq, hh, hf, ho⟩⟩

theorem sameWritten_halt : SameWritten u s.halt t.halt := by
  obtain ⟨hm, hp, -, hf, ho⟩ := sameWritten_rest h
  exact ⟨h.reg, h.fl, sameRest_iff.mp ⟨hm, hp, rfl, hf, ho⟩⟩

theorem sameWritten_fail (e : FaultRecord) : SameWritten u (s.fail e) (t.fail e) := by
  obtain ⟨hm, hp, hh, -, ho⟩ := sameWritten_rest h
  exact ⟨h.reg, h.fl, sameRest_iff.mp ⟨hm, hp, hh, rfl, ho⟩⟩

theorem sameWritten_emit (hv : w = v) : SameWritten u (s.emit v) (t.emit w) := by
  obtain ⟨hm, hp, hh, hf, ho⟩ := sameWritten_rest h
  have hout : t.out ++ [w] = s.out ++ [v] := by rw [ho, hv]
  exact ⟨h.reg, h.fl, sameRest_iff.mp ⟨hm, hp, hh, hf, hout⟩⟩

/-- FL written alike need not be counted as unwritten. -/
theorem sameWritten_setFl (hv : w = v) (hu : ∀ x ∈ u, x ≠ .fl → x ∈ u') :
    SameWritten u' (s.setFl v) (t.setFl w) := by
  obtain ⟨hm, hp, hh, hf, ho⟩ := sameWritten_rest h
  exact ⟨fun i hi => h.reg i fun hmem => hi (hu _ hmem nofun), fun _ => hv, sameRest_iff.mp ⟨hm, hp, hh, hf, ho⟩⟩

/-- Nor need a register written alike. -/
theorem sameWritten_setReg {r : Fin 8} (hv : w = v) (hu : ∀ x ∈ u, x ≠ .reg (regByte r) → x ∈ u') :
    SameWritten u' (s.setReg r v) (t.setReg r w) := by
  obtain ⟨hm, hp, hh, hf, ho⟩ := sameWritten_rest h
  refine ⟨fun i hi => ?_, fun hfl => h.fl fun hmem => hfl (hu _ hmem nofun), sameRest_iff.mp ⟨hm, hp, hh, hf, ho⟩⟩
  rw [State.reg_setReg, State.reg_setReg]
  split
  · exact hv
  · rename_i hir
    exact h.reg i fun hmem => hi (hu _ hmem fun heq => hir (regByte_inj (StrictItem.reg.inj heq)))

theorem sameWritten_setSp (hv : w = v) : SameWritten u (s.setSp v) (t.setSp w) :=
  sameWritten_setReg h hv fun _ hx _ => hx

theorem sameWritten_pushed (hsp : t.sp = s.sp) (hv : w = v) : SameWritten u (s.pushed v) (t.pushed w) := by
  obtain ⟨hm, hp, hh, hf, ho⟩ := sameWritten_rest h
  have hset : SameWritten u (s.setSp (s.sp - 1#8)) (t.setSp (t.sp - 1#8)) := sameWritten_setSp h (by rw [hsp])
  have hmem : t.mem.write (t.sp - 1#8).toNat w = s.mem.write (s.sp - 1#8).toNat v := by rw [hm, hsp, hv]
  exact ⟨hset.reg, hset.fl, sameRest_iff.mp ⟨hmem, hp, hh, hf, ho⟩⟩

end

/-! ### A commit from states that differ only in what is unwritten -/

/-- In the second state too the instruction commits; where it reads nothing unwritten, what it commits differs only in
what is still unwritten. -/
def CommitsAlike (u : List StrictItem) (i : Instr) (s s' t : State) : Prop :=
  ∃ t', Commits t i t' ∧ ((∀ x ∈ readItems i s, x ∉ u) → SameWritten (stillUnwritten i u) s' t')

/-- An instruction that writes no item. -/
theorem commitsAlike_of_no_write {u : List StrictItem} {i : Instr} {s s' t t' : State} (ht : Commits t i t')
    (hi : writeItems i = []) (h : (∀ x ∈ readItems i s, x ∉ u) → SameWritten u s' t') : CommitsAlike u i s s' t :=
  ⟨t', ht, fun hread => sameWritten_mono (h hread) fun _ hx => mem_stillUnwritten.mpr ⟨hx, by simp [hi]⟩⟩

theorem mem_stillUnwritten_of_ne {u : List StrictItem} {i : Instr} {y : StrictItem} (hi : writeItems i = [y])
    (x : StrictItem) (hx : x ∈ u) (hne : x ≠ y) : x ∈ stillUnwritten i u :=
  mem_stillUnwritten.mpr ⟨hx, by rwa [hi, List.mem_singleton]⟩

theorem Commits.alike {u : List StrictItem} {i : Instr} {s s' t : State} (h : Commits s i s')
    (hst : SameWritten u s t) (h7 : .reg 7#8 ∉ u) : CommitsAlike u i s s' t := by
  obtain ⟨hmem, hpc, -, -, -⟩ := sameWritten_rest hst
  have hsp : t.sp = s.sp := sameWritten_sp hst h7
  have hseq (o : Op) : seqPc o t.pc = seqPc o s.pc := by rw [hpc]
  have htop : t.byteAt t.sp.toNat = s.byteAt s.sp.toNat := by rw [byteAt_congr hmem, hsp]
  have hlowered {ra : Fin 8} (hra : t.reg ra = s.reg ra) :
      (t.setSp (t.sp - 1#8)).reg ra = (s.setSp (s.sp - 1#8)).reg ra := by
    rw [State.reg_setSp, State.reg_setSp, hsp, hra]
  cases h with
  | hlt =>
    exact commitsAlike_of_no_write .hlt rfl fun _ => sameWritten_setPc (sameWritten_halt hst) (hseq .hlt)
  | ldi ra b =>
    exact ⟨_, .ldi ra b, fun _ =>
      sameWritten_setPc (sameWritten_setReg hst rfl (mem_stillUnwritten_of_ne rfl)) (hseq .ldi)⟩
  | prn ra =>
    refine commitsAlike_of_no_write (.prn ra) rfl fun hread => ?_
    have hra := hst.reg ra (hread _ (by simp [readItems]))
    exact sameWritten_setPc (sameWritten_emit hst hra) (hseq .prn)
  | not ra =>
    refine ⟨_, .not ra, fun hread => ?_⟩
    have hra := hst.reg ra (hread _ (by simp [readItems]))
    exact sameWritten_setPc (sameWritten_setReg hst (by rw [hra]) (mem_stillUnwritten_of_ne rfl)) (hseq .not)
  | @alu o f hf ra rb =>
    obtain ⟨-, hreads, hwrites⟩ := aluFun_row hf (regByte ra) (regByte rb) s s
    refine ⟨_, .alu hf ra rb, fun hread => ?_⟩
    have hra := hst.reg ra (hread _ (by simp [hreads]))
    have hrb := hst.reg rb (hread _ (by simp [hreads]))
    exact sameWritten_setPc (sameWritten_setReg hst (by rw [hra, hrb]) (mem_stillUnwritten_of_ne hwrites)) (hseq o)
  | cmp ra rb =>
    refine ⟨_, .cmp ra rb, fun hread => ?_⟩
    have hra := hst.reg ra (hread _ (by simp [readItems]))
    have hrb := hst.reg rb (hread _ (by simp [readItems]))
    exact sameWritten_setPc (sameWritten_setFl hst (by rw [hra, hrb]) (mem_stillUnwritten_of_ne rfl)) (hseq .cmp)
  | jmp ra =>
    refine commitsAlike_of_no_write (.jmp ra) rfl fun hread => sameWritten_setPc hst ?_
    rw [hst.reg ra (hread _ (by simp [readItems]))]
  | jeq ra =>
    refine commitsAlike_of_no_write (.jeq ra) rfl fun hread => sameWritten_setPc hst ?_
    rw [hst.fl (hread _ ((fl_mem_readItems _ s).mpr ⟨_, .inl rfl⟩)), hseq .jeq]
    cases hE : flagE s.fl
    · rfl
    · rw [hst.reg ra (hread _ (by simp [readItems, hE]))]
  | jne ra =>
    refine commitsAlike_of_no_write (.jne ra) rfl fun hread => sameWritten_setPc hst ?_
    rw [hst.fl (hread _ ((fl_mem_readItems _ s).mpr ⟨_, .inr rfl⟩)), hseq .jne]
    cases hE : flagE s.fl
    · rw [hst.reg ra (hread _ (by simp [readItems, hE]))]
    · rfl
  | push ra h =>
    refine commitsAlike_of_no_write (.push ra (by rwa [hsp])) rfl fun hread => ?_
    have hra := hst.reg ra (hread _ (by simp [readItems]))
    exact sameWritten_setPc (sameWritten_pushed hst hsp (hlowered hra)) (hseq .push)
  | call ra h =>
    refine commitsAlike_of_no_write (.call ra (by rwa [hsp])) rfl fun hread => ?_
    have hra := hst.reg ra (hread _ (by simp [readItems]))
    exact sameWritten_setPc (sameWritten_pushed hst hsp (by rw [hpc])) (by rw [hlowered hra])
  | pop ra h =>
    have hpopped : (t.setReg ra (t.byteAt t.sp.toNat)).sp = (s.setReg ra (s.byteAt s.sp.toNat)).sp := by
      rw [State.sp_setReg, State.sp_setReg, htop, hsp]
    exact ⟨_, .pop ra (by rwa [hpopped]), fun _ => sameWritten_setPc (sameWritten_setSp
      (sameWritten_setReg hst htop (mem_stillUnwritten_of_ne rfl)) (by rw [hpopped])) (hseq .pop)⟩
  | ret h =>
    exact commitsAlike_of_no_write (.ret (by rwa [hsp])) rfl fun _ =>
      sameWritten_setPc (sameWritten_setSp hst (by rw [hsp])) (by rw [htop])

/-! ### The strict step from states that differ only in what is unwritten -/

/-- A branch reads FL first, whether or not it is taken. -/
theorem find?_readItems_of_branch {u : List StrictItem} (hfl : .fl ∈ u) {i : Instr} {a : Byte}
    (hi : i = .jeq a ∨ i = .jne a) (s : State) : (readItems i s).find? u.contains = some .fl := by
  have hfirst (l : List StrictItem) : (StrictItem.fl :: l).find? u.contains = some .fl :=
    List.find?_cons_of_pos (List.contains_iff_mem.mpr hfl)
  rcases hi with rfl | rfl
  · rw [readItems]
    split <;> exact hfirst _
  · rw [readItems]
    split <;> exact hfirst _

/-- The first unwritten item read is the same: FL alone decides what an instruction reads. -/
theorem find?_readItems_congr {u : List StrictItem} {s t : State} (hst : SameWritten u s t) (i : Instr) :
    (readItems i t).find? u.contains = (readItems i s).find? u.contains := by
  by_cases hfl : .fl ∈ u
  · cases i with
    | jeq a => rw [find?_readItems_of_branch hfl (.inl rfl), find?_readItems_of_branch hfl (.inl rfl)]
    | jne a => rw [find?_readItems_of_branch hfl (.inr rfl), find?_readItems_of_branch hfl (.inr rfl)]
    | hlt | ret | push a | pop a | prn a | call a | jmp a | not a | ldi a b | add a b | sub a b | mul a b | cmp a b
    | and a b | or a b | xor a b | shl a b | shr a b => rfl
  · have hread : readItems i t = readItems i s := by
      unfold readItems
      rw [hst.fl hfl]
    rw [hread]

/-- Where no step is enabled, both stop for the same reason. -/
theorem step_stop_congr {s t : State} (h : SameRest s t) (hrun : s.running = false) :
    ∃ f, step s = .fault f ∧ step t = .fault f := by
  have hstatus : t.status = s.status := by rw [State.status, h.halted, h.fault, State.status]
  cases hs : s.status with
  | running => cases hrun.symm.trans (State.running_of_status s hs)
  | halted => exact ⟨.halted, by simp only [step, stepIn, hs], by simp only [step, stepIn, hstatus, hs]⟩
  | faulted r => exact ⟨.faulted, by simp only [step, stepIn, hs], by simp only [step, stepIn, hstatus, hs]⟩

theorem reg_not_mem_stillUnwritten {u : List StrictItem} {x : StrictItem} (h : x ∉ u) (i : Instr) :
    x ∉ stillUnwritten i u :=
  fun hx => h (mem_stillUnwritten.mp hx).1

/-- The strict steps of two states go alike, and leave SP written. -/
def StrictAlike (u : List StrictItem) (s t : State) : Prop :=
  SameStrictOutcome (strictStep { state := s, unwritten := u }) (strictStep { state := t, unwritten := u }) ∧
    ∀ k, strictStep { state := s, unwritten := u } = .next k → .reg 7#8 ∉ k.unwritten

theorem strictAlike_of_fault {u : List StrictItem} {s t : State} {f : StrictFault}
    (hs : strictStep { state := s, unwritten := u } = .fault f)
    (ht : strictStep { state := t, unwritten := u } = .fault f) : StrictAlike u s t := by
  rw [StrictAlike, hs, ht]
  exact ⟨rfl, nofun⟩

theorem strictAlike_of_next {u u' : List StrictItem} {s s' t t' : State}
    (hs : strictStep { state := s, unwritten := u } = .next { state := s', unwritten := u' })
    (ht : strictStep { state := t, unwritten := u } = .next { state := t', unwritten := u' })
    (h7 : .reg 7#8 ∉ u') (hst : SameWritten u' s' t') : StrictAlike u s t := by
  rw [StrictAlike, hs, ht]
  exact ⟨⟨rfl, hst⟩, fun k hk => by cases hk; exact h7⟩

/-- Settles O58: no step, a fault taken, an unwritten read, or a commit, and each the same in both states. -/
theorem strictOutcomesIgnoreUnwrittenValues : Obligations.StrictOutcomesIgnoreUnwrittenValues := by
  intro u s t h7 hst
  show StrictAlike u s t
  have hrest := sameWritten_rest hst
  cases hrun : s.running with
  | false =>
    obtain ⟨f, hs, ht⟩ := step_stop_congr hrest hrun
    exact strictAlike_of_fault (strictStep_of_stop hs) (strictStep_of_stop ht)
  | true =>
    have hrun' : t.running = true := by rw [State.running, hrest.halted, hrest.fault, ← State.running, hrun]
    obtain ⟨-, hfs⟩ := (State.running_iff s).mp hrun
    obtain ⟨-, hft⟩ := (State.running_iff t).mp hrun'
    rcases takesFault_or_commits s with ⟨e, he⟩ | ⟨i, s', hi, hc⟩
    · have he' := he.congr hrest.pc hrest.mem (sameWritten_sp hst h7)
      exact strictAlike_of_next (strictStep_of_fault (step_of_takesFault hrun he) nofun)
        (strictStep_of_fault (step_of_takesFault hrun' he') nofun) h7 (sameWritten_fail hst e)
    · obtain ⟨t', hc', hsame⟩ := hc.alike hst h7
      have hi' := decodesAtPc_congr hrest.pc hrest.mem hi
      have hs := step_of_commits hrun hi hc
      have ht := step_of_commits hrun' hi' hc'
      have hfs' := hc.fault_eq.trans hfs
      have hft' := hc'.fault_eq.trans hft
      have hfirst := find?_readItems_congr hst i
      cases hx : (readItems i s).find? u.contains with
      | some x =>
        exact strictAlike_of_fault (strictStep_of_unwritten hs hfs' hi hx)
          (strictStep_of_unwritten ht hft' hi' (hfirst.trans hx))
      | none =>
        exact strictAlike_of_next (strictStep_of_written hs hfs' hi hx)
          (strictStep_of_written ht hft' hi' (hfirst.trans hx)) (reg_not_mem_stillUnwritten h7 i)
          (hsame (find?_unwritten_eq_none.mp hx))

end Sys2Proof.Machine
end
